-- ==== Sys2Proof/Word.lean ====
section
/-! DEFINITION. The values of the PB3 core: nibbles, bytes, headers, and sequences of a fixed length
(`00_scope.md` R9 to R11). Every value is unsigned and nothing wraps. -/

namespace Sys2Proof

/-- `Nib`: a 4-bit unsigned value, "the atomic unit of all fields in this design" (R9). -/
abbrev Nib := BitVec 4

/-- `Byte`: an 8-bit unsigned value. A `Char` is carried as the byte of its ASCII code (R9, R70). -/
abbrev Byte := BitVec 8

/-- A 16-bit request or response header (R61, R62). -/
abbrev Header := BitVec 16

/-- `Field`: a sequence of exactly 16 nibbles, nibble 0 first (R9). -/
abbrev Field16 := Vector Nib 16

/-- `RND : Nib^10`, the ten draws that come with a request of format CR, draw 0 first (R27, R66). -/
abbrev Draws := Vector Nib 10

end Sys2Proof
end

