-- ==== Sys2Proof/Config.lean ====
section
/-! DEFINITION. The constants of `00_scope.md` R7, none of them configurable, and the bounds of the one
open parameter `CAP_IN` (R8). No result depends on `CAP_IN` (R76), so the machine does not hold it:
statements take it as an argument. -/

namespace Sys2Proof.Config

/-- `FIELD_NIBBLES` (R7). -/
abbrev fieldNibbles : Nat := 16
/-- `BLOCK_BYTES` (R7). -/
abbrev blockBytes : Nat := 8
/-- `BLOCK_CHARS` (R7). -/
abbrev blockChars : Nat := 16
/-- `TAG`: nibble 0 of a PIN field (R7). -/
abbrev tag : Nib := 3
/-- `PIN_MIN`, inclusive (R7, conflict C2). -/
abbrev pinMin : Nat := 4
/-- `PIN_MAX`, inclusive (R7, conflict C2). -/
abbrev pinMax : Nat := 12
/-- `PAN_MIN` (R7). -/
abbrev panMin : Nat := 13
/-- `PAN_DIGITS` (R7). -/
abbrev panDigits : Nat := 12
/-- `PAN_ZEROS` (R7). -/
abbrev panZeros : Nat := 4
/-- `PAD_MAX`: most padding nibbles one PIN field needs (R7). -/
abbrev padMax : Nat := 10

/-- `DEFAULT_PAN`: the 16 characters `1111222233334444` in the ASCII codes of R70 (R7, R31). -/
def defaultPan : List Byte :=
  [0x31, 0x31, 0x31, 0x31, 0x32, 0x32, 0x32, 0x32, 0x33, 0x33, 0x33, 0x33, 0x34, 0x34, 0x34, 0x34]

/-- Greatest number of payload elements a 12-bit `ilen` or `olen` can say (R61, R62). -/
abbrev maxLen : Nat := 4095

/-- `cap` is a legal value of the open parameter `CAP_IN`: `17 <= CAP_IN <= 2047` (R8, R76, D8). -/
abbrev CapIn (cap : Nat) : Prop := 17 ≤ cap ∧ cap ≤ 2047

end Sys2Proof.Config
end

