-- ==== Sys2Proof/Syntax.lean ====
section
/-! DEFINITION. The operations of the PB3 core with their operands, and the wire form of a request.
An instruction is one WHOLE request: its operands are the payload elements and, for format CR, the
draws; `ilen` is the length of the payload (`30_encoding.md` R60, R61, R63). -/

namespace Sys2Proof

/-- How the 8-bit payload elements of a request are read (R64); `none` is the format of a reserved
code in the opcode table. -/
inductive Format where
  | c | cr | n | b | none
  deriving DecidableEq, Repr

/-- What the elements of a result payload are (R63, R64). -/
inductive ResultKind where
  | nibbles | bytes | chars | nothing
  deriving DecidableEq, Repr

/-- One constructor per row of spec/opcode_table.json (R63, R77). Payloads are kept as the 8-bit
elements of the request, high halves included, so no bit of a request is lost here. -/
inductive Instr where
  /-- `0x1 SETPAN`: a PAN string. -/
  | setpan (pan : List Byte)
  /-- `0x2 PANPREP`: a PAN string. -/
  | panprep (pan : List Byte)
  /-- `0x3 PINGEN`: a PIN string and ten draws. -/
  | pingen (pin : List Byte) (rnd : Draws)
  /-- `0x4 UNPACK`: bytes. -/
  | unpack (bytes : List Byte)
  /-- `0x5 PACK`: nibble-carrying elements. -/
  | pack (elems : List Byte)
  /-- `0x6 XOR16`: nibble-carrying elements, two fields of 16. -/
  | xor16 (elems : List Byte)
  /-- `0x7 PINEXT`: nibble-carrying elements, a clear PIN field. -/
  | pinext (elems : List Byte)
  /-- `0x8 ENCODE`: a PIN string and ten draws. -/
  | encode (pin : List Byte) (rnd : Draws)
  /-- `0x9 ENCODEB`: a PIN string and ten draws. -/
  | encodeb (pin : List Byte) (rnd : Draws)
  /-- `0xA DECODE`: a block string. -/
  | decode (block : List Byte)
  /-- `0xB DECODEB`: a block in byte form. -/
  | decodeb (block : List Byte)
  /-- `0x0`, reserved, with whatever payload came. -/
  | reserved0 (payload : List Byte)
  /-- `0xC` to `0xF`, reserved: `opLow` is bits 13:12 of the header. -/
  | reservedCToF (opLow : BitVec 2) (payload : List Byte)
  deriving DecidableEq, Repr

/-- `IBUF[0..ilen-1]`, the payload of the request (R41, R60). -/
def Instr.payload : Instr → List Byte
  | .setpan p => p
  | .panprep p => p
  | .pingen p _ => p
  | .unpack p => p
  | .pack p => p
  | .xor16 p => p
  | .pinext p => p
  | .encode p _ => p
  | .encodeb p _ => p
  | .decode p => p
  | .decodeb p => p
  | .reserved0 p => p
  | .reservedCToF _ p => p

/-- The format of an operation "is determined by `op` alone" (R64). -/
def Instr.format : Instr → Format
  | .setpan _ => .c
  | .panprep _ => .c
  | .pingen _ _ => .cr
  | .unpack _ => .b
  | .pack _ => .n
  | .xor16 _ => .n
  | .pinext _ => .n
  | .encode _ _ => .cr
  | .encodeb _ _ => .cr
  | .decode _ => .c
  | .decodeb _ => .b
  | .reserved0 _ => .none
  | .reservedCToF _ _ => .none

/-- The kind of the result payload (R63, R64). -/
def Instr.resultKind : Instr → ResultKind
  | .setpan _ => .nothing
  | .panprep _ => .nibbles
  | .pingen _ _ => .nibbles
  | .unpack _ => .nibbles
  | .pack _ => .bytes
  | .xor16 _ => .nibbles
  | .pinext _ => .nibbles
  | .encode _ _ => .chars
  | .encodeb _ _ => .bytes
  | .decode _ => .chars
  | .decodeb _ => .chars
  | .reserved0 _ => .nothing
  | .reservedCToF _ _ => .nothing

/-- The draws of a request of format CR; the other formats have none (R64, R66). -/
def Instr.draws : Instr → Option Draws
  | .setpan _ => none
  | .panprep _ => none
  | .pingen _ r => some r
  | .unpack _ => none
  | .pack _ => none
  | .xor16 _ => none
  | .pinext _ => none
  | .encode _ r => some r
  | .encodeb _ r => some r
  | .decode _ => none
  | .decodeb _ => none
  | .reserved0 _ => none
  | .reservedCToF _ _ => none

/-- The wire form of a request: the 16-bit header `REQ`, the payload elements that follow it, and
the value on the randomness port while it is presented (R60, R61). For a request that is not of
format CR the value of `rnd` is not looked at (DEDUCED, assumption log 6). -/
structure Request where
  header : Header
  ibuf : List Byte
  rnd : BitVec 40
  deriving DecidableEq, Repr

end Sys2Proof
end

