-- ==== Sys2Proof/WellFormed.lean ====
section
/-! DEFINITION. Which instructions are requests that the header layout can carry, and which a core of a
given capacity can be presented with (`30_encoding.md` R61, R62, R76). -/

namespace Sys2Proof

/-- The payload length is sayable in the 12-bit `ilen` of the request header (R61). -/
def Instr.lengthFits (i : Instr) : Bool := decide (i.payload.length ≤ Config.maxLen)

/-- The result length is sayable in the 12-bit `olen` of the response header (R62). Only UNPACK,
whose result is twice as long as its payload, can miss it; no capacity that R76 allows lets such a
request be formed (DESIGN CHOICE, assumption log 4). -/
def Instr.resultFits : Instr → Bool
  | .setpan _ => true
  | .panprep _ => true
  | .pingen _ _ => true
  | .unpack p => decide (2 * p.length ≤ Config.maxLen)
  | .pack _ => true
  | .xor16 _ => true
  | .pinext _ => true
  | .encode _ _ => true
  | .encodeb _ _ => true
  | .decode _ => true
  | .decodeb _ => true
  | .reserved0 _ => true
  | .reservedCToF _ _ => true

/-- A well-formed instruction: a request the two header layouts can carry. -/
def Instr.wf (i : Instr) : Bool := i.lengthFits && i.resultFits

/-- A core whose capacity is `cap` can be presented with this request: `ilen <= CAP_IN` (R61, R76). -/
def Instr.presentable (cap : Nat) (i : Instr) : Bool := decide (i.payload.length ≤ cap)

end Sys2Proof
end

