-- ==== Sys2Proof/Decode.lean ====
section
/-! DEFINITION. From the wire form of a request to an instruction and back: the header layout, the
operation codes and the randomness port of `30_encoding.md` R61, R63, R66 and R77. -/

namespace Sys2Proof

/-! ## Header fields (R61) -/

/-- `op`, bits 15:12 of a request header. -/
def headerOp (h : Header) : BitVec 4 := h.extractLsb' 12 4

/-- `ilen`, bits 11:0 of a request header. -/
def headerIlen (h : Header) : Nat := (h.extractLsb' 0 12).toNat

/-- The header with a given `op` and `ilen`. -/
def mkHeader (op : BitVec 4) (ilen : Nat) : Header := (op ++ BitVec.ofNat 12 ilen : BitVec 16)

/-! ## The randomness port (R61: draw `j` is in bits `[39-4j : 36-4j]`) -/

/-- The ten draws on the 40-bit port, draw 0 the most significant nibble. -/
def drawsOfPort (rnd : BitVec 40) : Draws :=
  Vector.ofFn fun j : Fin 10 => rnd.extractLsb' (36 - 4 * j.val) 4

/-- The 40-bit port value that presents ten draws. -/
def portOfDraws (r : Draws) : BitVec 40 :=
  BitVec.ofNat 40 (r.toList.foldl (fun acc d => 16 * acc + d.toNat) 0)

/-! ## Operation codes (R63, R77) -/

/-- The operation code of an instruction (R63; reserved codes R77). -/
def Instr.opcode : Instr → BitVec 4
  | .setpan _ => 0x1
  | .panprep _ => 0x2
  | .pingen _ _ => 0x3
  | .unpack _ => 0x4
  | .pack _ => 0x5
  | .xor16 _ => 0x6
  | .pinext _ => 0x7
  | .encode _ _ => 0x8
  | .encodeb _ _ => 0x9
  | .decode _ => 0xA
  | .decodeb _ => 0xB
  | .reserved0 _ => 0x0
  | .reservedCToF opLow _ => (0b11#2 ++ opLow : BitVec 4)

/-- The operation with a given code: total, every one of the sixteen codes has a verdict (R63, R77). -/
def decodeOp (op : BitVec 4) (payload : List Byte) (rnd : Draws) : Instr :=
  match op.toNat with
  | 0x0 => .reserved0 payload
  | 0x1 => .setpan payload
  | 0x2 => .panprep payload
  | 0x3 => .pingen payload rnd
  | 0x4 => .unpack payload
  | 0x5 => .pack payload
  | 0x6 => .xor16 payload
  | 0x7 => .pinext payload
  | 0x8 => .encode payload rnd
  | 0x9 => .encodeb payload rnd
  | 0xA => .decode payload
  | 0xB => .decodeb payload
  | _ => .reservedCToF (op.extractLsb' 0 2) payload

/-- Why a wire form is no request. -/
inductive DecodeError where
  /-- The payload does not have the `ilen` elements its header announces: not a request
  (DEDUCED from R60, R61: assumption log 3). Safe: the model stops where the spec has no transaction. -/
  | payloadLength
  deriving DecidableEq, Repr

/-- The decoder: total on every header, payload and port value. -/
def decodeRequest (q : Request) : Except DecodeError Instr :=
  if q.ibuf.length = headerIlen q.header then
    .ok (decodeOp (headerOp q.header) q.ibuf (drawsOfPort q.rnd))
  else
    .error .payloadLength

/-- The encoder: the request that stands for an instruction. A format without draws leaves the port
at zero. -/
def encodeRequest (i : Instr) : Request where
  header := mkHeader i.opcode i.payload.length
  ibuf := i.payload
  rnd := match i.draws with
    | some r => portOfDraws r
    | none => 0

/-! ## The opcode table's numbering

Bit 0 is the least significant bit of the header, and the bits above the header count on through the
payload elements, element 0 first, and then the randomness port (DESIGN CHOICE, assumption log 5). -/

/-- The request whose bits are the low `nbits` bits of `w`, every bit above them zero: its payload
has the `ilen` elements its header announces. -/
def requestOfBits (nbits w : Nat) : Request :=
  let v := w % 2 ^ nbits
  let h := BitVec.ofNat 16 v
  let n := headerIlen h
  { header := h
    ibuf := (List.range n).map fun k => BitVec.ofNat 8 (v / 2 ^ (16 + 8 * k))
    rnd := BitVec.ofNat 40 (v / 2 ^ (16 + 8 * n)) }

/-- The instruction the decoder reads from the bits `w` of a row of `nbits` bits. -/
def decodeTableWord (nbits w : Nat) : Option Instr :=
  match decodeRequest (requestOfBits nbits w) with
  | .ok i => some i
  | .error _ => none

end Sys2Proof
end

