-- ==== Sys2Proof/Machine/State.lean ====
section
/-! DEFINITION. The state of the machine as plain data: the one register of the PB3 core
(`10_state.md` R20 to R35) and, marked as the model's own, the interface the step reads and writes
(assumption log 1). There is no memory, pc, flag or status register (R23 to R25, `20_memory.md` R40). -/

namespace Sys2Proof.Machine

/-- The error classes of `60_exceptions.md` R155. -/
inductive ErrClass where
  | lenError | charError | formatError | internalError | opError
  deriving DecidableEq, Repr

/-- The twelve causes of `60_exceptions.md` R156: which check failed. -/
inductive Cause where
  | panShort | panChar | pinLen | pinChar | blkstrLen | blkstrChar | blkbytesLen
  | badTag | badPinlen | fieldLen | oddNibbles | illegalOp
  deriving DecidableEq, Repr

/-- A response: the 16-bit header `RSP` and the payload `OBUF` (R60, R62). -/
structure Response where
  header : Header
  obuf : List Byte
  deriving DecidableEq, Repr

/-- What the host does next: it presents a request (`caller` says which of the callers that share
the instance issued it, R50, R176) or it resets the core between two transactions (R185, R187). -/
inductive HostEvent where
  | request (caller : Nat) (q : Request)
  | reset
  deriving DecidableEq, Repr

/-- The state. `panf` is the whole architectural state (R20, R32). The other three fields are the
MODEL'S OWN interface (DESIGN CHOICE, assumption log 1): no operation reads them. -/
structure State where
  /-- `PANF`, the PAN field: nibbles 0 to 3 are `Z0`..`Z3`, nibbles 4 to 15 are `P0`..`P11` (R20, R22). -/
  panf : Field16
  /-- The response port of the transaction just performed; empty between transactions (R28, R32). -/
  rsp : Option Response
  /-- What the host will do, in the total order of R50, next event first. -/
  host : List HostEvent
  /-- The responses the host has been given, each with the caller it went to, oldest first (R176). -/
  delivered : List (Nat × Response)
  deriving DecidableEq, Repr

/-- Reasons the machine stops with a fault: none. "No trap, hang or undefined result exists"
(`00_scope.md` R15): a failed check is an error response, after which the core goes on (R170 to R172). -/
inductive Fault where
  deriving DecidableEq, Repr

/-- Reasons the model gives a step no meaning. -/
inductive Refusal where
  /-- An instruction without a meaning yet. Raised by `exec` only. Safe. -/
  | notModelled (mnemonic : String)
  /-- The host presents something that is no request: a payload that does not have the `ilen`
  elements of its header (DEDUCED from R60, R61: assumption log 3). Raised by `step` only. Safe: no
  such transaction exists. -/
  | malformedRequest
  /-- An UNPACK whose result no response header can announce: more than 2047 elements, above every
  capacity (R76: "cannot be presented"; U7: refuse; DESIGN CHOICE, assumption log 4). Raised by UNPACK
  only. Safe: no core can be given it. -/
  | overCapacity
  deriving DecidableEq, Repr

/-- The outcome of a step of this machine. -/
abbrev Outcome := Host.Outcome State Fault Refusal

/-- The machine right after reset: `PANF = [0,0,0,0, 1,2,2,2, 2,3,3,3, 3,4,4,4]` (R31, R186); "there is
nothing else" (R32). The model's own interface is empty (DESIGN CHOICE, assumption log 1). -/
def State.reset : State where
  panf := #v[0, 0, 0, 0, 1, 2, 2, 2, 2, 3, 3, 3, 3, 4, 4, 4]
  rsp := none
  host := []
  delivered := []

end Sys2Proof.Machine
end

