-- ==== Sys2Proof/Machine/Operands.lean ====
section
/-! DEFINITION. Operand conversion: characters, nibble-carrying elements, and the views of a field
(`30_encoding.md` R70 to R75, `20_memory.md` R42 to R46, `10_state.md` R30). -/

namespace Sys2Proof.Machine

/-! ## Characters (R70 to R72, R74, R75) -/

/-- `ishex(c)`: the code is one of `0`-`9`, `A`-`F`, `a`-`f` (R71). -/
def ishex (c : Byte) : Bool :=
  (decide (0x30 ≤ c.toNat) && decide (c.toNat ≤ 0x39)) ||
  (decide (0x41 ≤ c.toNat) && decide (c.toNat ≤ 0x46)) ||
  (decide (0x61 ≤ c.toNat) && decide (c.toNat ≤ 0x66))

/-- `hexval(c)`, the nibble value of a hex digit (R72). It is defined only when `ishex(c)`; every use
is behind that check. -/
def hexval (c : Byte) : Nib :=
  if c.toNat ≤ 0x39 then BitVec.ofNat 4 (c.toNat - 0x30)
  else if c.toNat ≤ 0x46 then BitVec.ofNat 4 (c.toNat - 0x41 + 10)
  else BitVec.ofNat 4 (c.toNat - 0x61 + 10)

/-- `hexup(v)`, the upper-case hexadecimal digit of a nibble (R74). -/
def hexup (v : Nib) : Byte :=
  if v.toNat ≤ 9 then BitVec.ofNat 8 (0x30 + v.toNat) else BitVec.ofNat 8 (0x41 + v.toNat - 10)

/-- `decstr(v)`, the decimal numeral of a nibble: one character for 0 to 9, two for 10 to 15 (R75). -/
def decstr (v : Nib) : List Byte :=
  if v.toNat ≤ 9 then [BitVec.ofNat 8 (0x30 + v.toNat)]
  else [0x31, BitVec.ofNat 8 (0x30 + v.toNat - 10)]

/-- Every character of a string is a hex digit: the character check covers the whole payload (R159). -/
def allHex (s : List Byte) : Bool := s.all ishex

/-! ## Nibble-carrying elements (R42, R73) -/

/-- An input element of format N as a nibble: bits 7:4 are discarded, `e & 0xF` (R42, R73). -/
def lowNib (e : Byte) : Nib := (e &&& 0xF).setWidth 4

/-- Bits 7:4 of a byte, `b >> 4` (R111). -/
def highNib (b : Byte) : Nib := (b >>> 4).setWidth 4

/-- `zext_8(v)`: a nibble as an output element, bits 7:4 zero (R42, R73). -/
def zext8 (v : Nib) : Byte := v.setWidth 8

/-- Nibbles as an output payload (R42). -/
def nibElems (v : List Nib) : List Byte := v.map zext8

/-! ## Fields -/

/-- A field from its nibbles in order. Callers give exactly 16; the value past the end of a shorter
list is never used (R41). -/
def fieldOfList (v : List Nib) : Field16 := Vector.ofFn fun i : Fin 16 => v.getD i.val 0

/-- The 64-bit image of a field: nibble `i` in bits `[63-4i : 60-4i]` (R30). -/
def fieldImage (f : Field16) : BitVec 64 :=
  BitVec.ofNat 64 (f.toList.foldl (fun acc d => 16 * acc + d.toNat) 0)

/-- `Z0`..`Z3`, the zero nibbles of a PAN field (R22). -/
def fieldZ (f : Field16) (k : Fin 4) : Nib := f.toList.getD k.val 0

/-- `P0`..`P11`, the PAN nibbles of a PAN field (R22). -/
def fieldP (f : Field16) (k : Fin 12) : Nib := f.toList.getD (4 + k.val) 0

end Sys2Proof.Machine
end

