-- ==== Sys2Proof/Machine/Flags.lean ====
section
/-! DEFINITION. The status a response carries. The hardware has no flags or condition codes
(`10_state.md` R25); what says how an operation ended is the response header of `30_encoding.md` R62,
with the numbers of `60_exceptions.md` R155 and R156. -/

namespace Sys2Proof.Machine

/-- The `status` number of an error class (R155); 0 is `OK`. -/
def ErrClass.status : ErrClass → BitVec 4
  | .lenError => 1
  | .charError => 2
  | .formatError => 3
  | .internalError => 4
  | .opError => 5

/-- The `cause` number (R156). -/
def Cause.number : Cause → BitVec 4
  | .panShort => 1
  | .panChar => 2
  | .pinLen => 3
  | .pinChar => 4
  | .blkstrLen => 5
  | .blkstrChar => 6
  | .blkbytesLen => 7
  | .badTag => 8
  | .badPinlen => 9
  | .fieldLen => 10
  | .oddNibbles => 11
  | .illegalOp => 12

/-- The class of a cause, which is fixed (R156). -/
def Cause.cls : Cause → ErrClass
  | .panShort => .lenError
  | .panChar => .charError
  | .pinLen => .lenError
  | .pinChar => .charError
  | .blkstrLen => .lenError
  | .blkstrChar => .charError
  | .blkbytesLen => .lenError
  | .badTag => .formatError
  | .badPinlen => .formatError
  | .fieldLen => .internalError
  | .oddNibbles => .internalError
  | .illegalOp => .opError

/-- The header of a successful response: status 0 in bits 15:12, `olen` in bits 11:0 (R62). -/
def okHeader (olen : Nat) : Header := (0#4 ++ BitVec.ofNat 12 olen : BitVec 16)

/-- The header of an error response: the class in bits 15:12, zeros in 11:4, the cause in 3:0 (R62). -/
def errHeader (c : Cause) : Header := (c.cls.status ++ (0#8 ++ c.number : BitVec 12) : BitVec 16)

/-- The response of an operation that succeeds with the result `payload` (R62). -/
def okResponse (payload : List Byte) : Response := ⟨okHeader payload.length, payload⟩

/-- The response of an operation that raises `c`: no payload, nothing of a partial result (R62, R170). -/
def errResponse (c : Cause) : Response := ⟨errHeader c, []⟩

/-- `status`, bits 15:12 of a response header (R62). -/
def Response.status (r : Response) : BitVec 4 := r.header.extractLsb' 12 4

/-- `olen`, bits 11:0 of the header of a successful response (R62). -/
def Response.olen (r : Response) : BitVec 12 := r.header.extractLsb' 0 12

/-- `cause`, bits 3:0 of the header of an error response (R62). -/
def Response.cause (r : Response) : BitVec 4 := r.header.extractLsb' 0 4

/-- Bits 11:4 of a response header, zero in an error response (R62). -/
def Response.middle (r : Response) : BitVec 8 := r.header.extractLsb' 4 8

end Sys2Proof.Machine
end

