-- ==== Sys2Proof/Machine/Units.lean ====
section
/-! DEFINITION. The five datapath units as pure functions, which either return a value or raise
(`00_scope.md` R2, R14): PAN field extractor, PIN field generator, packer and unpacker, XOR combiner,
PIN digit extractor, and the chains of the codec operations. Checks stand in the order of
`60_exceptions.md` R165 and R166: the first that fails decides the cause. -/

namespace Sys2Proof.Machine

/-! ## U2: PAN field extractor -/

/-- `pan_field(s)` (R91): length before characters (R166), then four zeros and the twelve characters
before the last one. -/
def panField (s : List Byte) : Except Cause Field16 :=
  if s.length < Config.panMin then .error .panShort
  else if allHex s = false then .error .panChar
  else .ok (Vector.ofFn fun i : Fin 16 =>
    if i.val < Config.panZeros then 0
    else hexval (s.getD (s.length - 13 + (i.val - Config.panZeros)) 0))

/-! ## U1: PIN field generator -/

/-- `pin_field(s, r)` (R97, R98): tag, length, digits, then draw `j` in nibble `2+L+j`. -/
def pinField (s : List Byte) (r : Draws) : Except Cause Field16 :=
  if s.length < Config.pinMin ∨ s.length > Config.pinMax then .error .pinLen
  else if allHex s = false then .error .pinChar
  else .ok (Vector.ofFn fun i : Fin 16 =>
    if i.val = 0 then Config.tag
    else if i.val = 1 then BitVec.ofNat 4 s.length
    else if i.val < 2 + s.length then hexval (s.getD (i.val - 2) 0)
    else r.toList.getD (i.val - (2 + s.length)) 0)

/-! ## U4: unpacker and packer -/

/-- `unpack(b)` (R111): each byte's high nibble, then its low nibble. -/
def unpackBytes (b : List Byte) : List Nib := b.flatMap fun x => [highNib x, lowNib x]

/-- Pairs of elements into bytes, the first of each pair in the high half (R113). -/
def packPairs : List Byte → List Byte
  | hi :: lo :: rest => (((hi &&& 0xF) <<< 4) ||| (lo &&& 0xF)) :: packPairs rest
  | [_] => []
  | [] => []

/-- `pack(v)` (R113): an odd number of elements raises; only the low four bits of an element count. -/
def packElems (v : List Byte) : Except Cause (List Byte) :=
  if v.length % 2 = 1 then .error .oddNibbles else .ok (packPairs v)

/-! ## U3: XOR combiner -/

/-- `xor_field(a, b)` (R121): sixteen independent 4-bit lanes; both operands must have 16 nibbles. -/
def xorField (a b : List Nib) : Except Cause Field16 :=
  if a.length ≠ Config.fieldNibbles ∨ b.length ≠ Config.fieldNibbles then .error .fieldLen
  else .ok (Vector.ofFn fun i : Fin 16 => a.getD i.val 0 ^^^ b.getD i.val 0)

/-! ## U5: PIN digit extractor -/

/-- `pin_extract(f)` (R125): tag, then length, then nibbles `2..1+L`; padding is not looked at. -/
def pinExtract (f : Field16) : Except Cause (List Nib) :=
  if f[0] ≠ Config.tag then .error .badTag
  else if f[1].toNat < Config.pinMin ∨ f[1].toNat > Config.pinMax then .error .badPinlen
  else .ok ((f.toList.drop 2).take f[1].toNat)

/-- `pin_string(d)` (R128): the decimal numerals of the digits, one after another. -/
def pinString (d : List Nib) : List Byte := d.flatMap decstr

/-! ## Chains of the codec operations -/

/-- `encode_field(s, r, p)` (R138). -/
def encodeField (s : List Byte) (r : Draws) (p : Field16) : Except Cause Field16 :=
  match pinField s r with
  | .error c => .error c
  | .ok f => xorField f.toList p.toList

/-- `decode_field(c, p)` (R142). -/
def decodeField (c : List Nib) (p : Field16) : Except Cause (List Byte) :=
  match xorField c p.toList with
  | .error e => .error e
  | .ok f =>
    match pinExtract f with
    | .error e => .error e
    | .ok d => .ok (pinString d)

end Sys2Proof.Machine
end

