-- ==== Sys2Proof/Machine/Ops.lean ====
section
/-! DEFINITION. The shared operations over the state: writing `PANF`, answering, raising an error
(what taking an exception is on this hardware), delivering a response to its caller, reset. -/

namespace Sys2Proof.Machine

/-- `PANF <- f`: all 16 nibbles in one indivisible update (R12, R20, R50). -/
def State.writePanf (s : State) (f : Field16) : State := { s with panf := f }

/-- Put a response on the response port (R60). -/
def State.present (s : State) (r : Response) : State := { s with rsp := some r }

/-- `raise <Class>(<cause>)`: the operation ends with an error response and changes nothing; there is
no saved register, vector or mode, and nothing to return from (R13, R170 to R172). -/
def raise (c : Cause) (s : State) : Outcome := .next (s.present (errResponse c))

/-- An operation ends well with the result `payload` (R14, R62). -/
def respond (payload : List Byte) (s : State) : Outcome := .next (s.present (okResponse payload))

/-- An operation ends with what its units returned or raised; `PANF` is not written (R14, R170). -/
def answer (res : Except Cause (List Byte)) (s : State) : Outcome :=
  match res with
  | .ok payload => respond payload s
  | .error c => raise c s

/-- An operation that ends with a result of nibbles (R42). -/
def answerField (res : Except Cause Field16) (s : State) : Outcome :=
  match res with
  | .ok f => respond (nibElems f.toList) s
  | .error c => raise c s

/-- The response on the port goes to the caller whose request it answers, and the port is empty again
(R28, R60, R176). -/
def State.deliver (s : State) (caller : Nat) : State :=
  match s.rsp with
  | some r => { s with rsp := none, delivered := s.delivered ++ [(caller, r)] }
  | none => s

/-- End of a transaction. -/
def deliverTo (caller : Nat) : Outcome → Outcome
  | .next s => .next (s.deliver caller)
  | .fault r => .fault r
  | .refused r => .refused r

/-- Reset between transactions: `PANF` takes its default value, "that is the whole effect"
(R31, R185, R186). What the host will do and has been answered is the host's, not the core's
(DESIGN CHOICE, assumption log 7). -/
def resetCore (s : State) : State := s.writePanf State.reset.panf

/-- Nothing is presented: the core "is idle and holds `PANF`" (DEDUCED from R183, assumption log 2). -/
def idle (s : State) : State := s

/-- The host presents `q` before anything else it had in mind (DESIGN CHOICE,
assumption log 5). -/
def State.presentNext (s : State) (q : Request) : State := { s with host := .request 0 q :: s.host }

end Sys2Proof.Machine
end

