-- ==== Sys2Proof/Machine/BlockCombiner.lean ====
section
/-! DEFINITION. XOR16 and PINEXT (`42_block_combiner.md`). -/

namespace Sys2Proof.Machine

/-- XOR16 (R122): both operands come from the payload, `PANF` is not read. -/
def execXor16 (elems : List Byte) (s : State) : Outcome :=
  if elems.length ≠ 32 then raise .fieldLen s
  else answerField (xorField ((elems.take 16).map lowNib) ((elems.drop 16).map lowNib)) s

/-- PINEXT (R126): the `L` digits of a clear PIN field as raw nibble elements. -/
def execPinext (elems : List Byte) (s : State) : Outcome :=
  if elems.length ≠ 16 then raise .fieldLen s
  else answer ((pinExtract (fieldOfList (elems.map lowNib))).map nibElems) s

end Sys2Proof.Machine
end

