-- ==== Sys2Proof/Machine/CodecOps.lean ====
section
/-! DEFINITION. SETPAN, ENCODE, ENCODEB, DECODE, DECODEB (`43_codec_ops.md`). Each reads `PANF` once,
as one snapshot (`20_memory.md` R50). -/

namespace Sys2Proof.Machine

/-- SETPAN (R136): the derivation comes first; when it raises, `PANF` is untouched. -/
def execSetpan (pan : List Byte) (s : State) : Outcome :=
  match panField pan with
  | .error c => raise c s
  | .ok f => respond [] (s.writePanf f)

/-- ENCODE (R139): the block as 16 upper-case hex characters. -/
def execEncode (pin : List Byte) (rnd : Draws) (s : State) : Outcome :=
  answer ((encodeField pin rnd s.panf).map fun c => c.toList.map hexup) s

/-- ENCODEB (R141): the block packed into 8 bytes. -/
def execEncodeb (pin : List Byte) (rnd : Draws) (s : State) : Outcome :=
  match encodeField pin rnd s.panf with
  | .error c => raise c s
  | .ok c => answer (packElems (nibElems c.toList)) s

/-- DECODE (R143): length, then characters, then the format checks of the chain. -/
def execDecode (block : List Byte) (s : State) : Outcome :=
  if block.length ≠ Config.blockChars then raise .blkstrLen s
  else if allHex block = false then raise .blkstrChar s
  else answer (decodeField (block.map hexval) s.panf) s

/-- DECODEB (R145): every byte value is legal, so there is no character check. -/
def execDecodeb (block : List Byte) (s : State) : Outcome :=
  if block.length ≠ Config.blockBytes then raise .blkbytesLen s
  else answer (decodeField (unpackBytes block) s.panf) s

end Sys2Proof.Machine
end

