-- ==== Sys2Proof/Machine/FieldPreparers.lean ====
section
/-! DEFINITION. PANPREP and PINGEN (`40_field_preparers.md`). -/

namespace Sys2Proof.Machine

/-- PANPREP (R92): the PAN field of the payload, as 16 nibble elements. -/
def execPanprep (pan : List Byte) (s : State) : Outcome := answerField (panField pan) s

/-- PINGEN (R99): the PIN field of the payload and the draws, as 16 nibble elements. -/
def execPingen (pin : List Byte) (rnd : Draws) (s : State) : Outcome := answerField (pinField pin rnd) s

end Sys2Proof.Machine
end

