-- ==== Sys2Proof/Machine/NibbleCodec.lean ====
section
/-! DEFINITION. UNPACK and PACK (`41_nibble_byte_codec.md`). -/

namespace Sys2Proof.Machine

/-- UNPACK (R112): `2*ilen` nibble elements, always `OK`. A result that the 12-bit `olen` cannot say
belongs to no request that can be formed (R76): refused (DESIGN CHOICE, assumption
log 4). -/
def execUnpack (bytes : List Byte) (s : State) : Outcome :=
  if Config.maxLen < 2 * bytes.length then .refused .overCapacity
  else respond (nibElems (unpackBytes bytes)) s

/-- PACK (R114): `ilen/2` bytes, or `ODD_NIBBLES`. -/
def execPack (elems : List Byte) (s : State) : Outcome := answer (packElems elems) s

end Sys2Proof.Machine
end

