-- ==== Sys2Proof/Machine/Reserved.lean ====
section
/-! DEFINITION. The reserved operation codes (`30_encoding.md` R77): whatever `ilen` and the payload
are, the response is `OpError(ILLEGAL_OP)`. -/

namespace Sys2Proof.Machine

/-- A request with code 0x0 (R77). -/
def execReserved0 (s : State) : Outcome := raise .illegalOp s

/-- A request with code 0xC, 0xD, 0xE or 0xF (R77). -/
def execReservedCToF (s : State) : Outcome := raise .illegalOp s

end Sys2Proof.Machine
end

