-- ==== Sys2Proof/Machine/Dispatch.lean ====
section
/-! DEFINITION. One arm per constructor of `Instr`, each one direct call of its meaning. -/

namespace Sys2Proof.Machine

def exec (i : Instr) (s : State) : Host.Outcome State Fault Refusal :=
  match i with
  | .setpan pan => Sys2Proof.Machine.execSetpan pan s
  | .panprep pan => Sys2Proof.Machine.execPanprep pan s
  | .pingen pin rnd => Sys2Proof.Machine.execPingen pin rnd s
  | .unpack bytes => Sys2Proof.Machine.execUnpack bytes s
  | .pack elems => Sys2Proof.Machine.execPack elems s
  | .xor16 elems => Sys2Proof.Machine.execXor16 elems s
  | .pinext elems => Sys2Proof.Machine.execPinext elems s
  | .encode pin rnd => Sys2Proof.Machine.execEncode pin rnd s
  | .encodeb pin rnd => Sys2Proof.Machine.execEncodeb pin rnd s
  | .decode block => Sys2Proof.Machine.execDecode block s
  | .decodeb block => Sys2Proof.Machine.execDecodeb block s
  | .reserved0 _ => Sys2Proof.Machine.execReserved0 s
  | .reservedCToF _ _ => Sys2Proof.Machine.execReservedCToF s

end Sys2Proof.Machine
end

