-- ==== Sys2Proof/Machine/Step.lean ====
section
/-! DEFINITION. One step: the next thing the host does is done whole (`00_scope.md` R6, `20_memory.md`
R50). A request is decoded, its operation performed, and its response given to its caller; a reset
happens between two transactions only (`70_reset_and_hazards.md` R187). -/

namespace Sys2Proof.Machine

/-- One transaction, one reset, or nothing to do. -/
def step (s : State) : Host.Outcome State Fault Refusal :=
  match s.host with
  | [] => .next (idle s)
  | .reset :: rest => .next (resetCore { s with host := rest })
  | .request caller q :: rest =>
    match decodeRequest q with
    | .ok i => deliverTo caller (exec i { s with host := rest })
    | .error _ => .refused .malformedRequest

/-- The state in which the very next step performs the request whose bits are `w` (opcode-table
numbering, every further bit zero). A program of this hardware is the sequence of requests a host
issues (`95_test_vectors.md` section 7); it comes from outside the core (DESIGN CHOICE,
assumption log 5). -/
def State.withFetchWord (s : State) (nbits w : Nat) : State := s.presentNext (requestOfBits nbits w)

end Sys2Proof.Machine
end

