-- ==== Sys2Proof/Machine/Assembler.lean ====
section
/-! DEFINITION. The written forms of `30_encoding.md` R80: a request as one line (mnemonic, payload,
draws), its encoded form, and a response. Text is a list of ASCII codes (R70). The step does not use
this file: it says how a line of the spec's vectors reads. -/

namespace Sys2Proof.Machine

/-- The ASCII codes of a text. -/
def ascii (t : List Char) : List Byte := t.map fun c => BitVec.ofNat 8 c.toNat

/-- Pieces of text with a separator between them. -/
def separated (sep : List Byte) : List (List Byte) → List Byte
  | [] => []
  | [x] => x
  | x :: y :: rest => x ++ sep ++ separated sep (y :: rest)

/-- A byte as two hex digits. -/
def hexByte (b : Byte) : List Byte := [hexup (highNib b), hexup (lowNib b)]

/-- A `Char` payload: a string in double quotes. -/
def quoted (s : List Byte) : List Byte := ascii ['"'] ++ s ++ ascii ['"']

/-- A `Byte` payload: two-digit hex numbers with spaces between them, `(no bytes)` when empty. -/
def byteList : List Byte → List Byte
  | [] => ascii ['(', 'n', 'o', ' ', 'b', 'y', 't', 'e', 's', ')']
  | b :: rest => separated (ascii [' ']) ((b :: rest).map hexByte)

/-- A bracketed list of hex digits, one per nibble. -/
def nibbleList (v : List Nib) : List Byte :=
  ascii ['['] ++ separated (ascii [',']) (v.map fun d => [hexup d]) ++ ascii [']']

/-- A nibble payload as one list, or in braces (codes 0x7B and 0x7D) when some element has bits 7:4
set. -/
def nibblePayload (e : List Byte) : List Byte :=
  if e.all (fun x => highNib x == 0) then nibbleList (e.map lowNib)
  else [0x7B] ++ byteList e ++ [0x7D]

/-- A nibble payload of XOR16: two lists, the first field then the second, when it has 32 nibbles. -/
def twoFieldPayload (e : List Byte) : List Byte :=
  if e.length = 32 ∧ e.all (fun x => highNib x == 0) = true then
    nibbleList ((e.take 16).map lowNib) ++ ascii [',', ' '] ++ nibbleList ((e.drop 16).map lowNib)
  else nibblePayload e

/-- `, rnd=[...]`: the ten draws `RND[0]` to `RND[9]`. -/
def drawsText (r : Draws) : List Byte := ascii [',', ' ', 'r', 'n', 'd', '='] ++ nibbleList r.toList

/-- The mnemonic; a reserved code has none. -/
def mnemonicText : Instr → List Byte
  | .setpan _ => ascii ['S', 'E', 'T', 'P', 'A', 'N']
  | .panprep _ => ascii ['P', 'A', 'N', 'P', 'R', 'E', 'P']
  | .pingen _ _ => ascii ['P', 'I', 'N', 'G', 'E', 'N']
  | .unpack _ => ascii ['U', 'N', 'P', 'A', 'C', 'K']
  | .pack _ => ascii ['P', 'A', 'C', 'K']
  | .xor16 _ => ascii ['X', 'O', 'R', '1', '6']
  | .pinext _ => ascii ['P', 'I', 'N', 'E', 'X', 'T']
  | .encode _ _ => ascii ['E', 'N', 'C', 'O', 'D', 'E']
  | .encodeb _ _ => ascii ['E', 'N', 'C', 'O', 'D', 'E', 'B']
  | .decode _ => ascii ['D', 'E', 'C', 'O', 'D', 'E']
  | .decodeb _ => ascii ['D', 'E', 'C', 'O', 'D', 'E', 'B']
  | .reserved0 _ => []
  | .reservedCToF _ _ => []

/-- The operands of a request as text. -/
def operandText : Instr → List Byte
  | .setpan p => quoted p
  | .panprep p => quoted p
  | .pingen p r => quoted p ++ drawsText r
  | .unpack b => byteList b
  | .pack e => nibblePayload e
  | .xor16 e => twoFieldPayload e
  | .pinext e => nibblePayload e
  | .encode p r => quoted p ++ drawsText r
  | .encodeb p r => quoted p ++ drawsText r
  | .decode b => quoted b
  | .decodeb b => byteList b
  | .reserved0 _ => []
  | .reservedCToF _ _ => []

/-- A request as one line (R80). A request with a reserved code has no such line. -/
def asmLine (i : Instr) : Option (List Byte) :=
  match mnemonicText i with
  | [] => none
  | m => some (m ++ ascii [' '] ++ operandText i)

/-- The encoded form of a request: the header in four hex digits, a colon, the payload elements, and
for format CR `; rnd=` and ten hex digits (R80). -/
def encodedText (i : Instr) : List Byte :=
  let h := (encodeRequest i).header
  hexByte (h.extractLsb' 8 8) ++ hexByte (h.extractLsb' 0 8) ++ ascii [':'] ++
    (i.payload.flatMap fun b => ascii [' '] ++ hexByte b) ++
    match i.draws with
    | some r => ascii [' ', ';', ' ', 'r', 'n', 'd', '='] ++ r.toList.map hexup
    | none => []

/-- The name of an error class (R155). -/
def ErrClass.text : ErrClass → List Byte
  | .lenError => ascii ['L', 'e', 'n', 'E', 'r', 'r', 'o', 'r']
  | .charError => ascii ['C', 'h', 'a', 'r', 'E', 'r', 'r', 'o', 'r']
  | .formatError => ascii ['F', 'o', 'r', 'm', 'a', 't', 'E', 'r', 'r', 'o', 'r']
  | .internalError => ascii ['I', 'n', 't', 'e', 'r', 'n', 'a', 'l', 'E', 'r', 'r', 'o', 'r']
  | .opError => ascii ['O', 'p', 'E', 'r', 'r', 'o', 'r']

/-- The name of a cause (R156). -/
def Cause.text : Cause → List Byte
  | .panShort => ascii ['P', 'A', 'N', '_', 'S', 'H', 'O', 'R', 'T']
  | .panChar => ascii ['P', 'A', 'N', '_', 'C', 'H', 'A', 'R']
  | .pinLen => ascii ['P', 'I', 'N', '_', 'L', 'E', 'N']
  | .pinChar => ascii ['P', 'I', 'N', '_', 'C', 'H', 'A', 'R']
  | .blkstrLen => ascii ['B', 'L', 'K', 'S', 'T', 'R', '_', 'L', 'E', 'N']
  | .blkstrChar => ascii ['B', 'L', 'K', 'S', 'T', 'R', '_', 'C', 'H', 'A', 'R']
  | .blkbytesLen => ascii ['B', 'L', 'K', 'B', 'Y', 'T', 'E', 'S', '_', 'L', 'E', 'N']
  | .badTag => ascii ['B', 'A', 'D', '_', 'T', 'A', 'G']
  | .badPinlen => ascii ['B', 'A', 'D', '_', 'P', 'I', 'N', 'L', 'E', 'N']
  | .fieldLen => ascii ['F', 'I', 'E', 'L', 'D', '_', 'L', 'E', 'N']
  | .oddNibbles => ascii ['O', 'D', 'D', '_', 'N', 'I', 'B', 'B', 'L', 'E', 'S']
  | .illegalOp => ascii ['I', 'L', 'L', 'E', 'G', 'A', 'L', '_', 'O', 'P']

/-- A successful response as text: `-> OK <payload>`, the payload written by its kind (R80, R63). -/
def okText (kind : ResultKind) (payload : List Byte) : List Byte :=
  ascii ['-', '>', ' ', 'O', 'K'] ++
    match kind with
    | .nothing => []
    | .nibbles => ascii [' '] ++ nibbleList (payload.map lowNib)
    | .bytes => ascii [' '] ++ byteList payload
    | .chars => ascii [' '] ++ quoted payload

/-- An error response as text: `-> <Class>(<CAUSE>)` (R80). -/
def errText (c : Cause) : List Byte :=
  ascii ['-', '>', ' '] ++ c.cls.text ++ ascii ['('] ++ c.text ++ ascii [')']

end Sys2Proof.Machine
end

