-- ==== Sys2Proof/Machine/EntryPoints.lean ====
section
/-! DEFINITION. The software entry points of the source document and what each is on this hardware
(the pseudo-operations of `30_encoding.md` R82). -/

namespace Sys2Proof.Machine

/-- The entry points of R82. The draws of the two encode entry points are fresh draws of the
randomness source (R82, R192), so they are an argument. -/
inductive EntryPoint where
  /-- `getCodec(format)`: the format argument has one legal value and selects nothing. -/
  | getCodec
  /-- `setParameters(options)`: `pan` is the value of the key `pan`, if the key is present; every
  other key is ignored. -/
  | setParameters (pan : Option (List Byte))
  | encode (pin : List Byte) (rnd : Draws)
  | encodeToBytes (pin : List Byte) (rnd : Draws)
  | decode (block : List Byte)
  | decodeFromBytes (block : List Byte)
  | preparePan (pan : List Byte)
  deriving DecidableEq, Repr

/-- What the host does to the core for a call of an entry point by a caller (R82). -/
def hostEvents (caller : Nat) : EntryPoint → List HostEvent
  | .getCodec => [.reset]
  | .setParameters (some pan) => [.request caller (encodeRequest (.setpan pan))]
  | .setParameters none => []
  | .encode pin rnd => [.request caller (encodeRequest (.encode pin rnd))]
  | .encodeToBytes pin rnd => [.request caller (encodeRequest (.encodeb pin rnd))]
  | .decode block => [.request caller (encodeRequest (.decode block))]
  | .decodeFromBytes block => [.request caller (encodeRequest (.decodeb block))]
  | .preparePan pan => [.request caller (encodeRequest (.panprep pan))]

end Sys2Proof.Machine
end

