-- ==== Sys2Proof/Safety.lean ====
section
/-! DEFINITION. What a safe run is, and the views of an operation's answer in which claims are stated.
Nothing here is part of the step. -/

namespace Sys2Proof.Machine

/-! ## Invariants -/

/-- "`PANF[0] = PANF[1] = PANF[2] = PANF[3] = 0`" (R21). -/
abbrev PanfOk (f : Field16) : Prop := ∀ k : Fin 4, fieldZ f k = 0

/-- The invariant of R21, which every step keeps. -/
abbrev State.Inv (s : State) : Prop := PanfOk s.panf

/-- Between transactions no response stands on the port (R28, R32). -/
abbrev State.PortIdle (s : State) : Prop := s.rsp = none

/-! ## Safe hosts -/

/-- The host can do this to a core of capacity `cap`: a reset, or a request that has the payload its
header announces, of at most `cap` elements (R60, R61, R76). -/
def HostEvent.possible (cap : Nat) : HostEvent → Bool
  | .reset => true
  | .request _ q =>
    match decodeRequest q with
    | .ok i => i.presentable cap
    | .error _ => false

/-- Everything the host is going to do is possible for a core of capacity `cap`. -/
abbrev State.SafeHost (cap : Nat) (s : State) : Prop := ∀ e ∈ s.host, e.possible cap = true

/-- `k` steps from `s` neither fault nor are refused. -/
def SafeRun (k : Nat) (s : State) : Prop := ∃ t, Sys2Proof.core.run k s = .next t

/-- The caller of an event, if it is a request. -/
def HostEvent.caller? : HostEvent → Option Nat
  | .reset => none
  | .request c _ => some c

/-- `PANF` after the events in order: "the one written by the latest successful SETPAN", or the reset
value after a reset (R50, R186). -/
def panfAfter (p : Field16) : List HostEvent → Field16
  | [] => p
  | .reset :: rest => panfAfter State.reset.panf rest
  | .request _ q :: rest =>
    match decodeRequest q with
    | .ok (.setpan pan) =>
      match panField pan with
      | .ok f => panfAfter f rest
      | .error _ => panfAfter p rest
    | _ => panfAfter p rest

/-! ## The answer of an operation -/

/-- The response an operation gives, if it ends. -/
def responseOf (i : Instr) (s : State) : Option Response :=
  match exec i s with
  | .next t => t.rsp
  | .fault _ => none
  | .refused _ => none

/-- The result payload of an operation that ends with status `OK`. -/
def resultOf (i : Instr) (s : State) : Option (List Byte) :=
  match responseOf i s with
  | some r => if r.status = 0 then some r.obuf else none
  | none => none

/-! ## Fields as the data model of the spec lists them -/

/-- "first 4 nibbles are zero; remaining 12 nibbles are the rightmost 12 digits of the PAN excluding its
trailing check digit" (R90). -/
def panNibbles (pan : List Byte) : List Nib :=
  [0, 0, 0, 0] ++ ((pan.drop (pan.length - 13)).take 12).map hexval

/-- "nibble 0 = format tag `3`; nibble 1 = PIN length `L`; nibbles 2..(2+L-1) = the PIN digits as nibble
values; remaining `16 - 2 - L` nibbles" the draws in order (R96, R98). -/
def pinNibbles (pin : List Byte) (rnd : Draws) : List Nib :=
  [3, BitVec.ofNat 4 pin.length] ++ pin.map hexval ++ rnd.toList.take (14 - pin.length)

/-- Lane by lane exclusive OR of two nibble sequences (R121). -/
def xorNibbles (a b : List Nib) : List Nib := List.zipWith (fun x y => x ^^^ y) a b

/-- The upper-case hex rendering of a byte sequence: two characters a byte, high nibble first (R46). -/
def hexRendering (b : List Byte) : List Byte := b.flatMap hexByte

/-! ## Which error belongs to which operation -/

/-- The causes an operation can raise, in the order of R157. -/
def causesOf : Instr → List Cause
  | .setpan _ => [.panShort, .panChar]
  | .panprep _ => [.panShort, .panChar]
  | .pingen _ _ => [.pinLen, .pinChar]
  | .unpack _ => []
  | .pack _ => [.oddNibbles]
  | .xor16 _ => [.fieldLen]
  | .pinext _ => [.fieldLen, .badTag, .badPinlen]
  | .encode _ _ => [.pinLen, .pinChar]
  | .encodeb _ _ => [.pinLen, .pinChar]
  | .decode _ => [.blkstrLen, .blkstrChar, .badTag, .badPinlen]
  | .decodeb _ => [.blkbytesLen, .badTag, .badPinlen]
  | .reserved0 _ => [.illegalOp]
  | .reservedCToF _ _ => [.illegalOp]

/-- The operations that read `PANF` (R63). -/
def readsPanf : Instr → Bool
  | .setpan _ => false
  | .panprep _ => false
  | .pingen _ _ => false
  | .unpack _ => false
  | .pack _ => false
  | .xor16 _ => false
  | .pinext _ => false
  | .encode _ _ => true
  | .encodeb _ _ => true
  | .decode _ => true
  | .decodeb _ => true
  | .reserved0 _ => false
  | .reservedCToF _ _ => false

/-- The operation that writes `PANF` (R63). -/
def writesPanf : Instr → Bool
  | .setpan _ => true
  | .panprep _ => false
  | .pingen _ _ => false
  | .unpack _ => false
  | .pack _ => false
  | .xor16 _ => false
  | .pinext _ => false
  | .encode _ _ => false
  | .encodeb _ _ => false
  | .decode _ => false
  | .decodeb _ => false
  | .reserved0 _ => false
  | .reservedCToF _ _ => false

end Sys2Proof.Machine
end

