-- ==== Sys2Proof/Certificates/Slice0/Obligations.lean ====
section
/-! DEFINITION. The statements for the provers. Each docstring names the rule of spec/ it formalises, or
says what it rests on. `exec i s = .next { s with … }` gives the whole next state, so it is also the
frame of the operation: what is not named is unchanged. -/

open Sys2Proof Sys2Proof.Machine

/-! ## Operand conversion -/

/-- R71, R72, R74, R75 (glyphs in the ASCII codes of R70): the hex digits are the 22 glyphs, each with
its value in either letter case; `hexup` and `decstr` render every nibble, and `hexval(hexup(v)) = v`. -/
def Obligations.HexDigitsHaveTheirValues : Prop :=
  (∀ c : Byte, ishex c = true ↔ c ∈ ascii ['0', '1', '2', '3', '4', '5', '6', '7', '8', '9',
    'a', 'b', 'c', 'd', 'e', 'f', 'A', 'B', 'C', 'D', 'E', 'F']) ∧
  (ascii ['0', '1', '2', '3', '4', '5', '6', '7', '8', '9']).map hexval = [0, 1, 2, 3, 4, 5, 6, 7, 8, 9] ∧
  (ascii ['a', 'b', 'c', 'd', 'e', 'f']).map hexval = [10, 11, 12, 13, 14, 15] ∧
  (ascii ['A', 'B', 'C', 'D', 'E', 'F']).map hexval = [10, 11, 12, 13, 14, 15] ∧
  ([0, 1, 2, 3, 4, 5, 6, 7, 8, 9, 10, 11, 12, 13, 14, 15] : List Nib).map hexup =
    ascii ['0', '1', '2', '3', '4', '5', '6', '7', '8', '9', 'A', 'B', 'C', 'D', 'E', 'F'] ∧
  (∀ v : Nib, hexval (hexup v) = v) ∧
  ([0, 1, 2, 3, 4, 5, 6, 7, 8, 9] : List Nib).map decstr =
    (ascii ['0', '1', '2', '3', '4', '5', '6', '7', '8', '9']).map (fun c => [c]) ∧
  ([10, 11, 12, 13, 14, 15] : List Nib).map decstr =
    [ascii ['1', '0'], ascii ['1', '1'], ascii ['1', '2'], ascii ['1', '3'], ascii ['1', '4'], ascii ['1', '5']]

/-- R30: in the 64-bit image nibble `i` occupies bits `[63-4i : 60-4i]`; the image is the byte form read
as a big-endian number; its hex digits, from the most significant, are the hex-string form; the reset
image is `0x0000122223333444`. -/
def Obligations.FieldImageIsBigEndian : Prop :=
  (∀ (f : Field16) (i : Fin 16), (fieldImage f).extractLsb' (60 - 4 * i.val) 4 = f[i]) ∧
  (∀ (f : Field16) (b : List Byte), packElems (nibElems f.toList) = .ok b →
    (fieldImage f).toNat = b.foldl (fun n x => 256 * n + x.toNat) 0 ∧
    hexRendering b = f.toList.map hexup) ∧
  fieldImage State.reset.panf = 0x0000122223333444#64

/-! ## Encoding -/

/-- R60, R61, R63: no bit of an instruction is lost: the request that encodes a well-formed instruction
decodes to it, for every operation and every operand. -/
def Obligations.DecodingUndoesEncoding : Prop :=
  ∀ i : Instr, i.wf = true → decodeRequest (encodeRequest i) = .ok i

/-- R60, R61: what the decoder accepts is the request of the instruction it answers: encoding that
instruction gives the same header and payload, and the same port value for the operations of format CR. -/
def Obligations.EncodingUndoesDecoding : Prop :=
  ∀ (q : Request) (i : Instr), decodeRequest q = .ok i →
    (encodeRequest i).header = q.header ∧ (encodeRequest i).ibuf = q.ibuf ∧
    (i.format = .cr → (encodeRequest i).rnd = q.rnd)

/-- R61, R63, R77: the decoder is total. A request whose payload has the `ilen` elements of its header
(bits 11:0) decodes to the operation whose code is in bits 15:12, for all sixteen codes, with that
payload; any other request is rejected by name (the model's reading of R60, log 3). -/
def Obligations.EveryHeaderHasItsVerdict : Prop :=
  ∀ (h : Header) (p : List Byte) (rnd : BitVec 40),
    (p.length = (h.extractLsb' 0 12).toNat → ∃ i, decodeRequest ⟨h, p, rnd⟩ = .ok i ∧ i.payload = p ∧
      (h.extractLsb' 12 4 = 0x0 → i = .reserved0 p) ∧
      (h.extractLsb' 12 4 = 0x1 → i = .setpan p) ∧
      (h.extractLsb' 12 4 = 0x2 → i = .panprep p) ∧
      (h.extractLsb' 12 4 = 0x3 → ∃ r, i = .pingen p r) ∧
      (h.extractLsb' 12 4 = 0x4 → i = .unpack p) ∧
      (h.extractLsb' 12 4 = 0x5 → i = .pack p) ∧
      (h.extractLsb' 12 4 = 0x6 → i = .xor16 p) ∧
      (h.extractLsb' 12 4 = 0x7 → i = .pinext p) ∧
      (h.extractLsb' 12 4 = 0x8 → ∃ r, i = .encode p r) ∧
      (h.extractLsb' 12 4 = 0x9 → ∃ r, i = .encodeb p r) ∧
      (h.extractLsb' 12 4 = 0xA → i = .decode p) ∧
      (h.extractLsb' 12 4 = 0xB → i = .decodeb p) ∧
      (0xC ≤ (h.extractLsb' 12 4).toNat → i = .reservedCToF (h.extractLsb' 12 2) p)) ∧
    (p.length ≠ (h.extractLsb' 0 12).toNat → decodeRequest ⟨h, p, rnd⟩ = .error .payloadLength)

/-- R61, R66: in a decoded request of format CR draw `j` is bits `[39-4j : 36-4j]` of the randomness
port, so `RND[0]` is the most significant nibble. -/
def Obligations.DrawsComeFromThePortInOrder : Prop :=
  ∀ (q : Request) (i : Instr) (r : Draws), decodeRequest q = .ok i → i.draws = some r →
    ∀ j : Fin 10, r[j] = q.rnd.extractLsb' (36 - 4 * j.val) 4

/-- R61, R63, R77: requests written out from the spec decode to what they stand for (headers `1011`,
`3004`, `4001`, `6000`, `F001` and a port value, one or more of every family). -/
def Obligations.WordsOfTheSpecDecode : Prop :=
  decodeRequest ⟨0x200D, [0x31, 0x32, 0x33, 0x34, 0x35, 0x36, 0x37, 0x38, 0x39, 0x30, 0x31, 0x32, 0x33], 0⟩ =
    .ok (.panprep (ascii ['1', '2', '3', '4', '5', '6', '7', '8', '9', '0', '1', '2', '3'])) ∧
  decodeRequest ⟨0x3004, [0x31, 0x32, 0x33, 0x34], 0x16409F8701⟩ =
    .ok (.pingen (ascii ['1', '2', '3', '4']) #v[1, 6, 4, 0, 9, 15, 8, 7, 0, 1]) ∧
  decodeRequest ⟨0x4001, [0xF0], 0⟩ = .ok (.unpack [0xF0]) ∧
  decodeRequest ⟨0x6000, [], 0⟩ = .ok (.xor16 []) ∧
  decodeRequest ⟨0x9004, [0x31, 0x32, 0x33, 0x34], 0xFEDCBA9876⟩ =
    .ok (.encodeb (ascii ['1', '2', '3', '4']) #v[15, 14, 13, 12, 11, 10, 9, 8, 7, 6]) ∧
  decodeRequest ⟨0xE001, [0xFF], 0⟩ = .ok (.reservedCToF 2 [0xFF])

/-! ## The step -/

/-- R6, R50, R60: when the host presents a request that decodes to `i`, the step is `exec i` on the state
without that request, after which the response on the port goes to the caller and the port is empty;
a refusal of the operation is the step's. (How the host and its callers stand in State is the model's
choice, log 1.) -/
def Obligations.StepRunsTheDecodedRequest : Prop :=
  ∀ (s : State) (c : Nat) (q : Request) (rest : List HostEvent) (i : Instr),
    s.host = .request c q :: rest → decodeRequest q = .ok i →
    (∀ t r, exec i { s with host := rest } = .next t → t.rsp = some r →
      step s = .next { t with rsp := none, delivered := t.delivered ++ [(c, r)] }) ∧
    (∀ e, exec i { s with host := rest } = .refused e → step s = .refused e)

/-- The model's interface (log 1, 2, 3), with the reset event of R185 and R187: with nothing to do the
core keeps its state (R183), and what is no request is refused by name. -/
def Obligations.IdleAndMalformedSteps : Prop :=
  (∀ s : State, s.host = [] → step s = .next s) ∧
  (∀ (s : State) (c : Nat) (q : Request) (rest : List HostEvent), s.host = .request c q :: rest →
    q.ibuf.length ≠ (q.header.extractLsb' 0 12).toNat → step s = .refused .malformedRequest)

/-- R186: the whole effect of a reset between transactions is
`PANF <- [0,0,0,0, 1,2,2,2, 2,3,3,3, 3,4,4,4]`. -/
def Obligations.ResetEventRestoresTheDefaultPanField : Prop :=
  ∀ (s : State) (rest : List HostEvent), s.host = .reset :: rest →
    step s = .next { s with host := rest, panf := #v[0, 0, 0, 0, 1, 2, 2, 2, 2, 3, 3, 3, 3, 4, 4, 4] }

/-- The opcode-table numbering of the model (log 5): a row's bits always decode, and the step of the
state prepared with them performs exactly that instruction first. -/
def Obligations.FetchWordIsPerformedFirst : Prop :=
  ∀ (s : State) (nbits w : Nat), ∃ i, decodeTableWord nbits w = some i ∧
    step (s.withFetchWord nbits w) = deliverTo 0 (exec i s)

/-! ## Reset and the invariant of PANF -/

/-- R31: `PANF` after reset is `pan_field("1111222233334444")`, that is
`[0,0,0,0, 1,2,2,2, 2,3,3,3, 3,4,4,4]`. -/
def Obligations.ResetHoldsTheDefaultPanField : Prop :=
  panField (ascii ['1', '1', '1', '1', '2', '2', '2', '2', '3', '3', '3', '3', '4', '4', '4', '4']) =
    .ok State.reset.panf ∧
  State.reset.panf.toList = [0, 0, 0, 0, 1, 2, 2, 2, 2, 3, 3, 3, 3, 4, 4, 4]

/-- R21: the invariant of `PANF` holds right after reset. -/
def Obligations.ResetMeetsThePanfInvariant : Prop :=
  State.reset.Inv ∧ State.reset.PortIdle

/-- R21: "it always holds exactly 16 nibbles, and `PANF[0] = PANF[1] = PANF[2] = PANF[3] = 0`", after
reset, after every operation, and after every step from every state where it holds. -/
def Obligations.StepsKeepThePanfInvariant : Prop :=
  State.reset.Inv ∧
  (∀ (i : Instr) (s t : State), s.Inv → exec i s = .next t → t.Inv) ∧
  (∀ s t : State, s.Inv → step s = .next t →
    t.panf.toList.length = 16 ∧ t.panf[0] = 0 ∧ t.panf[1] = 0 ∧ t.panf[2] = 0 ∧ t.panf[3] = 0)

/-- R28, R32: between transactions nothing of a request or a response is left: if the port is empty
before a step it is empty after it. -/
def Obligations.StepsLeaveThePortEmpty : Prop :=
  ∀ s t : State, s.PortIdle → step s = .next t → t.PortIdle

/-! ## What each operation answers -/

/-- R136, R22: SETPAN with a PAN string of at least 13 hex digits replaces all 16 nibbles of `PANF` by four
zeros (`Z0`..`Z3`) and the values of the characters at `n-13 .. n-2` (`P0`..`P11`), and answers `OK` with
no payload. -/
def Obligations.SetpanReplacesThePanField : Prop :=
  ∀ (pan : List Byte) (s : State), 13 ≤ pan.length → (∀ c ∈ pan, ishex c = true) →
    ∃ f : Field16, f.toList = [0, 0, 0, 0] ++ ((pan.drop (pan.length - 13)).take 12).map hexval ∧
      (∀ k : Fin 4, fieldZ f k = 0) ∧
      (∀ k : Fin 12, fieldP f k = hexval (pan.getD (pan.length - 13 + k.val) 0)) ∧
      exec (.setpan pan) s = .next { s with panf := f, rsp := some ⟨0x0000, []⟩ }

/-- R92: PANPREP answers the 16 nibbles of the PAN field, and writes nothing. -/
def Obligations.PanprepAnswersThePanField : Prop :=
  ∀ (pan : List Byte) (s : State), 13 ≤ pan.length → (∀ c ∈ pan, ishex c = true) →
    exec (.panprep pan) s = .next { s with rsp := some ⟨0x0010,
      ([0, 0, 0, 0] ++ ((pan.drop (pan.length - 13)).take 12).map hexval).map zext8⟩ }

/-- R99: PINGEN answers the 16 nibbles tag 3, length, digits, then draw `j` in nibble `2+L+j`. -/
def Obligations.PingenAnswersThePinField : Prop :=
  ∀ (pin : List Byte) (rnd : Draws) (s : State), 4 ≤ pin.length → pin.length ≤ 12 →
    (∀ c ∈ pin, ishex c = true) →
    exec (.pingen pin rnd) s = .next { s with rsp := some ⟨0x0010,
      ([3, BitVec.ofNat 4 pin.length] ++ pin.map hexval ++ rnd.toList.take (14 - pin.length)).map zext8⟩ }

/-- R112: UNPACK answers, for every byte in order, bits 7:4 then bits 3:0, as elements with zero high
halves, `olen = 2*ilen`. More elements than any `olen` can say belong to no request that can be formed
(R76): refused by name (log 4). -/
def Obligations.UnpackAnswersTheNibbles : Prop :=
  ∀ (b : List Byte) (s : State),
    (2 * b.length ≤ 4095 → exec (.unpack b) s = .next { s with rsp := some ⟨
      (0#4 ++ BitVec.ofNat 12 (2 * b.length) : BitVec 16), b.flatMap fun x : Byte => [x >>> 4, x &&& 0xF]⟩ }) ∧
    (4095 < 2 * b.length → exec (.unpack b) s = .refused .overCapacity)

/-- R114: PACK of an even number of elements answers `ilen/2` bytes, byte `k` made of the low four bits
of elements `2k` (high half) and `2k+1`; of an odd number it raises `ODD_NIBBLES`. -/
def Obligations.PackAnswersTheBytes : Prop :=
  ∀ (e : List Byte) (s : State),
    (e.length % 2 = 0 → ∃ b : List Byte, b.length = e.length / 2 ∧
      (∀ k, k < b.length → b.getD k 0 = ((e.getD (2 * k) 0 &&& 0xF) <<< 4) ||| (e.getD (2 * k + 1) 0 &&& 0xF)) ∧
      exec (.pack e) s = .next { s with rsp := some ⟨(0#4 ++ BitVec.ofNat 12 (e.length / 2) : BitVec 16), b⟩ }) ∧
    (e.length % 2 = 1 → exec (.pack e) s = .next { s with rsp := some ⟨0x400B, []⟩ })

/-- R122: XOR16 of 32 elements answers the lane by lane exclusive OR of the low four bits of elements `i`
and `16+i`; of any other number it raises `FIELD_LEN`. `PANF` is neither read nor written. -/
def Obligations.Xor16AnswersTheExclusiveOr : Prop :=
  ∀ (e : List Byte) (s : State),
    (e.length = 32 → ∃ v : List Byte, v.length = 16 ∧
      (∀ k, k < 16 → v.getD k 0 = (e.getD k 0 ^^^ e.getD (16 + k) 0) &&& 0xF) ∧
      exec (.xor16 e) s = .next { s with rsp := some ⟨0x0010, v⟩ }) ∧
    (e.length ≠ 32 → exec (.xor16 e) s = .next { s with rsp := some ⟨0x400A, []⟩ })

/-- R126: PINEXT of 16 elements whose nibble 0 is 3 and whose nibble 1 is `L`, 4 to 12, answers nibbles
`2 .. 1+L` as raw elements, `olen = L`. -/
def Obligations.PinextAnswersTheDigits : Prop :=
  ∀ (e : List Byte) (s : State) (L : Nat), e.length = 16 → e.getD 0 0 &&& 0xF = 3 →
    (e.getD 1 0 &&& 0xF).toNat = L → 4 ≤ L → L ≤ 12 →
    exec (.pinext e) s = .next { s with rsp := some ⟨
      (0#4 ++ BitVec.ofNat 12 L : BitVec 16), ((e.drop 2).take L).map fun x => x &&& 0xF⟩ }

/-- R139, R138: ENCODE answers, as 16 upper-case hex characters, the lane by lane exclusive OR of the PIN
field (tag, length, digits, draws) and `PANF`, and writes nothing. -/
def Obligations.EncodeAnswersTheBlockString : Prop :=
  ∀ (pin : List Byte) (rnd : Draws) (s : State), 4 ≤ pin.length → pin.length ≤ 12 →
    (∀ c ∈ pin, ishex c = true) →
    exec (.encode pin rnd) s = .next { s with rsp := some ⟨0x0010,
      (xorNibbles (pinNibbles pin rnd) s.panf.toList).map hexup⟩ }

/-- R141: ENCODEB answers the same block as 8 bytes, nibble `2k` in the high half of byte `k` and nibble
`2k+1` in the low half. -/
def Obligations.EncodebAnswersTheBlockBytes : Prop :=
  ∀ (pin : List Byte) (rnd : Draws) (s : State), 4 ≤ pin.length → pin.length ≤ 12 →
    (∀ c ∈ pin, ishex c = true) →
    ∃ b : List Byte, b.length = 8 ∧
      (b.flatMap fun x => [highNib x, lowNib x]) = xorNibbles (pinNibbles pin rnd) s.panf.toList ∧
      exec (.encodeb pin rnd) s = .next { s with rsp := some ⟨0x0008, b⟩ }

/-- R143, R142, R128: DECODE of 16 hex characters whose exclusive OR with `PANF` has tag 3 and a length
`L` of 4 to 12 answers the decimal numerals of nibbles `2 .. 1+L`, one after another. -/
def Obligations.DecodeAnswersThePinString : Prop :=
  ∀ (b : List Byte) (s : State) (f : List Nib) (L : Nat), b.length = 16 → (∀ c ∈ b, ishex c = true) →
    f = xorNibbles (b.map hexval) s.panf.toList → f.getD 0 0 = 3 → (f.getD 1 0).toNat = L → 4 ≤ L → L ≤ 12 →
    exec (.decode b) s = .next { s with rsp := some (okResponse (((f.drop 2).take L).flatMap decstr)) }

/-- R145, R142, R128: DECODEB of 8 bytes answers the same for the nibbles of the bytes, high half first. -/
def Obligations.DecodebAnswersThePinString : Prop :=
  ∀ (b : List Byte) (s : State) (f : List Nib) (L : Nat), b.length = 8 →
    f = xorNibbles (b.flatMap fun x => [highNib x, lowNib x]) s.panf.toList → f.getD 0 0 = 3 →
    (f.getD 1 0).toNat = L → 4 ≤ L → L ≤ 12 →
    exec (.decodeb b) s = .next { s with rsp := some (okResponse (((f.drop 2).take L).flatMap decstr)) }

/-- R77: the codes 0x0 and 0xC to 0xF are reserved: a request whose header has one of them in bits 15:12
answers `status = 5`, `cause = 12`, no payload, and `PANF` is unchanged, whatever `ilen` and the payload
are; and those are the requests of the two reserved constructors. -/
def Obligations.ReservedCodesRaiseIllegalOp : Prop :=
  (∀ (h : Header) (p : List Byte) (rnd : BitVec 40) (s : State), p.length = (h.extractLsb' 0 12).toNat →
    (h.extractLsb' 12 4 = 0x0 ∨ 0xC ≤ (h.extractLsb' 12 4).toNat) →
    ∃ i, decodeRequest ⟨h, p, rnd⟩ = .ok i ∧ exec i s = .next { s with rsp := some ⟨0x500C, []⟩ }) ∧
  (∀ (p : List Byte) (low : BitVec 2) (s : State),
    exec (.reserved0 p) s = .next { s with rsp := some ⟨0x500C, []⟩ } ∧
    exec (.reservedCToF low p) s = .next { s with rsp := some ⟨0x500C, []⟩ })

/-! ## Errors -/

/-- R91, R166: SETPAN and PANPREP raise `PAN_SHORT` on fewer than 13 characters, whatever they are, and
otherwise `PAN_CHAR` when any character is not a hex digit; nothing changes, `PANF` included. -/
def Obligations.PanErrors : Prop :=
  ∀ (pan : List Byte) (s : State),
    (pan.length < 13 → exec (.setpan pan) s = .next { s with rsp := some ⟨0x1001, []⟩ } ∧
      exec (.panprep pan) s = .next { s with rsp := some ⟨0x1001, []⟩ }) ∧
    (13 ≤ pan.length → (∃ c ∈ pan, ishex c = false) →
      exec (.setpan pan) s = .next { s with rsp := some ⟨0x2002, []⟩ } ∧
      exec (.panprep pan) s = .next { s with rsp := some ⟨0x2002, []⟩ })

/-- R97, R166: PINGEN, ENCODE and ENCODEB raise `PIN_LEN` on a length outside 4 to 12, whatever the
characters and draws, and otherwise `PIN_CHAR` when any character is not a hex digit. -/
def Obligations.PinErrors : Prop :=
  ∀ (pin : List Byte) (rnd : Draws) (s : State),
    (pin.length < 4 ∨ 12 < pin.length → exec (.pingen pin rnd) s = .next { s with rsp := some ⟨0x1003, []⟩ } ∧
      exec (.encode pin rnd) s = .next { s with rsp := some ⟨0x1003, []⟩ } ∧
      exec (.encodeb pin rnd) s = .next { s with rsp := some ⟨0x1003, []⟩ }) ∧
    (4 ≤ pin.length → pin.length ≤ 12 → (∃ c ∈ pin, ishex c = false) →
      exec (.pingen pin rnd) s = .next { s with rsp := some ⟨0x2004, []⟩ } ∧
      exec (.encode pin rnd) s = .next { s with rsp := some ⟨0x2004, []⟩ } ∧
      exec (.encodeb pin rnd) s = .next { s with rsp := some ⟨0x2004, []⟩ })

/-- R143, R145, R166: DECODE checks length, then characters, then tag, then length nibble; DECODEB checks
length, then tag, then length nibble; the first check that fails is the one reported. -/
def Obligations.BlockErrors : Prop :=
  (∀ (b : List Byte) (s : State),
    (b.length ≠ 16 → exec (.decode b) s = .next { s with rsp := some ⟨0x1005, []⟩ }) ∧
    (b.length = 16 → (∃ c ∈ b, ishex c = false) → exec (.decode b) s = .next { s with rsp := some ⟨0x2006, []⟩ }) ∧
    (b.length ≠ 8 → exec (.decodeb b) s = .next { s with rsp := some ⟨0x1007, []⟩ })) ∧
  (∀ (b : List Byte) (s : State) (f : List Nib), b.length = 16 → (∀ c ∈ b, ishex c = true) →
    f = xorNibbles (b.map hexval) s.panf.toList →
    (f.getD 0 0 ≠ 3 → exec (.decode b) s = .next { s with rsp := some ⟨0x3008, []⟩ }) ∧
    (f.getD 0 0 = 3 → ((f.getD 1 0).toNat < 4 ∨ 12 < (f.getD 1 0).toNat) →
      exec (.decode b) s = .next { s with rsp := some ⟨0x3009, []⟩ })) ∧
  (∀ (b : List Byte) (s : State) (f : List Nib), b.length = 8 →
    f = xorNibbles (b.flatMap fun x => [highNib x, lowNib x]) s.panf.toList →
    (f.getD 0 0 ≠ 3 → exec (.decodeb b) s = .next { s with rsp := some ⟨0x3008, []⟩ }) ∧
    (f.getD 0 0 = 3 → ((f.getD 1 0).toNat < 4 ∨ 12 < (f.getD 1 0).toNat) →
      exec (.decodeb b) s = .next { s with rsp := some ⟨0x3009, []⟩ }))

/-- R126, R166: PINEXT raises `FIELD_LEN` unless it has 16 elements, then `BAD_TAG` unless nibble 0 is 3,
then `BAD_PINLEN` unless nibble 1 is 4 to 12. -/
def Obligations.PinextErrors : Prop :=
  ∀ (e : List Byte) (s : State),
    (e.length ≠ 16 → exec (.pinext e) s = .next { s with rsp := some ⟨0x400A, []⟩ }) ∧
    (e.length = 16 → e.getD 0 0 &&& 0xF ≠ 3 → exec (.pinext e) s = .next { s with rsp := some ⟨0x3008, []⟩ }) ∧
    (e.length = 16 → e.getD 0 0 &&& 0xF = 3 →
      ((e.getD 1 0 &&& 0xF).toNat < 4 ∨ 12 < (e.getD 1 0 &&& 0xF).toNat) →
      exec (.pinext e) s = .next { s with rsp := some ⟨0x3009, []⟩ })

/-- R157: the errors each operation can raise, complete: an answer whose status is not 0 is the error
response of a cause in the operation's list, and every cause of the list is raised by some request with
that operation code. So `FIELD_LEN` and `ODD_NIBBLES` never arise in the codec operations (R163). -/
def Obligations.CausesOfEachOperation : Prop :=
  (∀ (i : Instr) (s t : State) (r : Response), exec i s = .next t → t.rsp = some r → r.status ≠ 0 →
    ∃ c ∈ causesOf i, r = errResponse c) ∧
  (∀ (i : Instr) (c : Cause), c ∈ causesOf i → ∃ (j : Instr) (s t : State), j.opcode = i.opcode ∧
    j.wf = true ∧ exec j s = .next t ∧ t.rsp = some (errResponse c))

/-- R171: an operation that fails changes no state: `PANF` after it equals `PANF` before it, SETPAN
included; nothing is saved but the response that reports it, which has no payload; and no draw is used:
a failing PINGEN, ENCODE or ENCODEB gives the same answer whatever the draws are. -/
def Obligations.FailedOperationsChangeNothing : Prop :=
  (∀ (i : Instr) (s t : State) (r : Response), exec i s = .next t → t.rsp = some r → r.status ≠ 0 →
    t = { s with rsp := some r } ∧ r.obuf = []) ∧
  (∀ (pin : List Byte) (d d' : Draws) (s t : State) (r : Response), t.rsp = some r → r.status ≠ 0 →
    (exec (.pingen pin d) s = .next t → exec (.pingen pin d') s = .next t) ∧
    (exec (.encode pin d) s = .next t → exec (.encode pin d') s = .next t) ∧
    (exec (.encodeb pin d) s = .next t → exec (.encodeb pin d') s = .next t))

/-! ## Rules about every operation -/

/-- Derived from R55 and R60 (every operation completes, with one response), R62 (the header layout),
R155 and R156 (the ranges of status and cause): every operation answers with exactly one response; on
success status 0 and `olen` the number of payload elements; on an error a status of 1 to 5, bits 11:4
zero, a cause of 1 to 12 and no payload. That `host` and `delivered` are untouched speaks of the model's
own fields (assumption log 1). -/
def Obligations.EveryOperationAnswersOnce : Prop :=
  ∀ (i : Instr) (s : State), i.wf = true → ∃ (t : State) (r : Response), exec i s = .next t ∧
    t.rsp = some r ∧ t.host = s.host ∧ t.delivered = s.delivered ∧
    ((r.header.extractLsb' 12 4 = 0 ∧ (r.header.extractLsb' 0 12).toNat = r.obuf.length) ∨
     (1 ≤ (r.header.extractLsb' 12 4).toNat ∧ (r.header.extractLsb' 12 4).toNat ≤ 5 ∧
      r.header.extractLsb' 4 8 = 0 ∧ 1 ≤ (r.header.extractLsb' 0 4).toNat ∧
      (r.header.extractLsb' 0 4).toNat ≤ 12 ∧ r.obuf = []))

/-- R65: the length of a successful result, per operation. -/
def Obligations.ResultLengths : Prop :=
  ∀ (i : Instr) (s t : State) (r : Response), exec i s = .next t → t.rsp = some r → r.status = 0 →
    match i with
    | .setpan _ => r.obuf.length = 0
    | .panprep _ => r.obuf.length = 16
    | .pingen _ _ => r.obuf.length = 16
    | .unpack b => r.obuf.length = 2 * b.length
    | .pack e => r.obuf.length = e.length / 2
    | .xor16 _ => r.obuf.length = 16
    | .pinext e => r.obuf.length = (e.getD 1 0 &&& 0xF).toNat ∧ 4 ≤ r.obuf.length ∧ r.obuf.length ≤ 12
    | .encode _ _ => r.obuf.length = 16
    | .encodeb _ _ => r.obuf.length = 8
    | .decode b => ∃ d : List Nib,
        d = ((xorNibbles (b.map hexval) s.panf.toList).drop 2).take
          ((xorNibbles (b.map hexval) s.panf.toList).getD 1 0).toNat ∧
        r.obuf.length = d.length + d.countP (fun v => decide (10 ≤ v.toNat)) ∧
        4 ≤ r.obuf.length ∧ r.obuf.length ≤ 24
    | .decodeb b => ∃ d : List Nib,
        d = ((xorNibbles (unpackBytes b) s.panf.toList).drop 2).take
          ((xorNibbles (unpackBytes b) s.panf.toList).getD 1 0).toNat ∧
        r.obuf.length = d.length + d.countP (fun v => decide (10 ≤ v.toNat)) ∧
        4 ≤ r.obuf.length ∧ r.obuf.length ≤ 24
    | .reserved0 _ => False
    | .reservedCToF _ _ => False

/-- R42: bits 7:4 of a nibble-carrying element are discarded on input (two payloads with equal low halves
give the same answer, for every operation of format N) and are 0 on output. -/
def Obligations.NibbleElementsAreMasked : Prop :=
  (∀ (e e' : List Byte) (s : State), e.map (fun x => x &&& 0xF) = e'.map (fun x => x &&& 0xF) →
    exec (.pack e) s = exec (.pack e') s ∧ exec (.xor16 e) s = exec (.xor16 e') s ∧
    exec (.pinext e) s = exec (.pinext e') s) ∧
  (∀ (i : Instr) (s t : State) (r : Response), i.resultKind = .nibbles → exec i s = .next t →
    t.rsp = some r → ∀ x ∈ r.obuf, x >>> 4 = 0)

/-- R26, R63: only SETPAN changes `PANF`; every other operation leaves nothing behind but its response. -/
def Obligations.OnlySetpanWritesPanf : Prop :=
  ∀ (i : Instr) (s t : State), (∀ pan, i ≠ .setpan pan) → exec i s = .next t → t = { s with rsp := t.rsp }

/-- R26, R29, R52, R172: the answer of an operation and the `PANF` after it depend on its operands and
`PANF` alone: not on an earlier response, on what the host will do or on what it has been answered. -/
def Obligations.AnswersDependOnOperandsAndPanfOnly : Prop :=
  ∀ (i : Instr) (s s' t : State), s.panf = s'.panf → exec i s = .next t →
    ∃ t', exec i s' = .next t' ∧ t'.rsp = t.rsp ∧ t'.panf = t.panf

/-- R188, R63: PANPREP, PINGEN, UNPACK, PACK, XOR16, PINEXT, and SETPAN's new field, do not depend on
`PANF` at all. -/
def Obligations.UnitOperationsIgnorePanf : Prop :=
  ∀ (i : Instr) (s t : State) (p : Field16), readsPanf i = false → exec i s = .next t →
    ∃ t', exec i { s with panf := p } = .next t' ∧ t'.rsp = t.rsp ∧ (t'.panf = p ∨ t'.panf = t.panf)

/-- R66, R98, R173: draws `RND[14-L..9]` are not used, and an operation that raises an error uses none. -/
def Obligations.UnusedDrawsAreIgnored : Prop :=
  ∀ (pin : List Byte) (r r' : Draws) (s : State),
    (4 ≤ pin.length ∧ pin.length ≤ 12 ∧ (∀ c ∈ pin, ishex c = true) →
      r.toList.take (14 - pin.length) = r'.toList.take (14 - pin.length)) →
    exec (.pingen pin r) s = exec (.pingen pin r') s ∧ exec (.encode pin r) s = exec (.encode pin r') s ∧
    exec (.encodeb pin r) s = exec (.encodeb pin r') s

/-- R127(e), R195: the padding never influences a decoding: two fields, or two blocks under one `PANF`,
that agree up to the last digit give the same answer. -/
def Obligations.PaddingIsNotLookedAt : Prop :=
  (∀ (e e' : List Byte) (s : State), e.length = 16 → e'.length = 16 →
    e.take (2 + (lowNib (e.getD 1 0)).toNat) = e'.take (2 + (lowNib (e.getD 1 0)).toNat) →
    exec (.pinext e) s = exec (.pinext e') s) ∧
  (∀ (b b' : List Byte) (s : State) (L : Nat), b.length = 8 → b'.length = 8 →
    L = ((xorNibbles (unpackBytes b) s.panf.toList).getD 1 0).toNat →
    (unpackBytes b).take (2 + L) = (unpackBytes b').take (2 + L) →
    exec (.decodeb b) s = exec (.decodeb b') s) ∧
  (∀ (b b' : List Byte) (s : State) (L : Nat), b.length = 16 → b'.length = 16 →
    (∀ c ∈ b, ishex c = true) → (∀ c ∈ b', ishex c = true) →
    L = ((xorNibbles (b.map hexval) s.panf.toList).getD 1 0).toNat →
    (b.map hexval).take (2 + L) = (b'.map hexval).take (2 + L) →
    exec (.decode b) s = exec (.decode b') s)

/-- R41, R76: a core of capacity `CAP_IN` answers every request it can be presented with, and no response
has more than `2*CAP_IN` elements. -/
def Obligations.ResponsesFitTheCapacity : Prop :=
  ∀ (cap : Nat) (i : Instr) (s : State), Config.CapIn cap → i.payload.length ≤ cap →
    ∃ (t : State) (r : Response), exec i s = .next t ∧ t.rsp = some r ∧ r.obuf.length ≤ 2 * cap

/-! ## Laws that tie the operations together -/

/-- R115: PACK of what UNPACK answers gives the bytes back, and UNPACK of what PACK answers gives the low
four bits of every element back. -/
def Obligations.PackAndUnpackAreInverse : Prop :=
  (∀ (b : List Byte) (s : State), 2 * b.length ≤ 4095 →
    ∃ v, resultOf (.unpack b) s = some v ∧ resultOf (.pack v) s = some b) ∧
  (∀ (e : List Byte) (s : State), e.length ≤ 4095 → e.length % 2 = 0 →
    ∃ b, resultOf (.pack e) s = some b ∧ resultOf (.unpack b) s = some (e.map fun x => x &&& 0xF))

/-- R123(a), (b): XOR16 of a field with itself is sixteen zeros, with the zero field it is the field, it
is commutative, and it is its own inverse. -/
def Obligations.Xor16Laws : Prop :=
  ∀ (a b : Field16) (s : State),
    resultOf (.xor16 (nibElems a.toList ++ nibElems a.toList)) s = some (List.replicate 16 0) ∧
    resultOf (.xor16 (nibElems a.toList ++ List.replicate 16 0)) s = some (nibElems a.toList) ∧
    resultOf (.xor16 (nibElems a.toList ++ nibElems b.toList)) s =
      resultOf (.xor16 (nibElems b.toList ++ nibElems a.toList)) s ∧
    ∃ c, resultOf (.xor16 (nibElems a.toList ++ nibElems b.toList)) s = some c ∧
      resultOf (.xor16 (c ++ nibElems b.toList)) s = some (nibElems a.toList)

/-- R123(c), R194: under the invariant of `PANF` the first four characters of a block are the tag, the
length and the first two digits in clear. -/
def Obligations.BlocksShowTheirFirstFourNibbles : Prop :=
  ∀ (pin : List Byte) (rnd : Draws) (s t : State) (b : List Byte), s.Inv →
    exec (.encode pin rnd) s = .next t → t.rsp = some (okResponse b) →
    b.take 4 = [0x33, hexup (BitVec.ofNat 4 pin.length), hexup (hexval (pin.getD 0 0)),
      hexup (hexval (pin.getD 1 0))]

/-- R144(c), R145: under the invariant of `PANF`, DECODE accepts a string exactly when it has 16 hex
digits, begins with `3` and goes on with one of `4 5 6 7 8 9 A B C a b c`; DECODEB accepts exactly 8 bytes
of which the first is `0x34` to `0x3C`. -/
def Obligations.AcceptedBlocks : Prop :=
  ∀ (b : List Byte) (s : State), s.Inv →
    ((∃ v, resultOf (.decode b) s = some v) ↔ b.length = 16 ∧ (∀ c ∈ b, ishex c = true) ∧
      b.getD 0 0 = 0x33 ∧
      b.getD 1 0 ∈ ascii ['4', '5', '6', '7', '8', '9', 'A', 'B', 'C', 'a', 'b', 'c']) ∧
    ((∃ v, resultOf (.decodeb b) s = some v) ↔ b.length = 8 ∧ 0x34 ≤ (b.getD 0 0).toNat ∧
      (b.getD 0 0).toNat ≤ 0x3C)

/-- R150, R191: decoding under another PAN raises no error: whether DECODE and DECODEB accept a block, and
the error they raise if not, is the same under every two values of `PANF` that meet the invariant. -/
def Obligations.WrongPanIsNotDetected : Prop :=
  ∀ (i : Instr) (s s' : State) (r r' : Response), (∃ b, i = .decode b ∨ i = .decodeb b) → s.Inv → s'.Inv →
    responseOf i s = some r → responseOf i s' = some r' →
    r.status = r'.status ∧ (r.status ≠ 0 → r = r')

/-- R147: ENCODEB is the chain `PACK(XOR16(PINGEN s, P))` and ENCODE its upper-case hex rendering, result
for result and error for error, with `P` the current PAN field. -/
def Obligations.EncodeIsTheChainOfUnits : Prop :=
  ∀ (pin : List Byte) (rnd : Draws) (s : State),
    (∀ f, resultOf (.pingen pin rnd) s = some f →
      ∃ c b, resultOf (.xor16 (f ++ nibElems s.panf.toList)) s = some c ∧ resultOf (.pack c) s = some b ∧
        resultOf (.encodeb pin rnd) s = some b ∧ resultOf (.encode pin rnd) s = some (hexRendering b)) ∧
    (∀ r, responseOf (.pingen pin rnd) s = some r → r.status ≠ 0 →
      responseOf (.encodeb pin rnd) s = some r ∧ responseOf (.encode pin rnd) s = some r)

/-- R147: DECODEB of 8 bytes is the chain `pin_string(PINEXT(XOR16(UNPACK b, P)))`, result for result and
error for error. -/
def Obligations.DecodebIsTheChainOfUnits : Prop :=
  ∀ (b : List Byte) (s : State), b.length = 8 →
    ∃ v c, resultOf (.unpack b) s = some v ∧ resultOf (.xor16 (v ++ nibElems s.panf.toList)) s = some c ∧
      (∀ d, resultOf (.pinext c) s = some d →
        resultOf (.decodeb b) s = some (d.flatMap fun x => decstr (lowNib x))) ∧
      (∀ r, responseOf (.pinext c) s = some r → r.status ≠ 0 → responseOf (.decodeb b) s = some r)

/-- R147: SETPAN stores what PANPREP of the same string returns, and raises what PANPREP raises. -/
def Obligations.SetpanStoresWhatPanprepReturns : Prop :=
  ∀ (pan : List Byte) (s : State),
    (∀ v, resultOf (.panprep pan) s = some v →
      ∃ f : Field16, nibElems f.toList = v ∧ exec (.setpan pan) s = .next { s with panf := f, rsp := some ⟨0, []⟩ }) ∧
    (∀ r, responseOf (.panprep pan) s = some r → r.status ≠ 0 →
      exec (.setpan pan) s = .next { s with rsp := some r })

/-- R145: DECODEB of the bytes `b` gives the same result and the same format error as DECODE of the
16-character hex rendering of `b`. -/
def Obligations.DecodebIsDecodeOfTheRendering : Prop :=
  ∀ (b : List Byte) (s : State), b.length = 8 → exec (.decodeb b) s = exec (.decode (hexRendering b)) s

/-- R148: for a PIN of 4 to 12 decimal digits, for every `PANF` and all draws, DECODE of what ENCODE
answers, and DECODEB of what ENCODEB answers, is the PIN. -/
def Obligations.DecimalPinsRoundTrip : Prop :=
  ∀ (pin : List Byte) (rnd : Draws) (s : State), 4 ≤ pin.length → pin.length ≤ 12 →
    (∀ c ∈ pin, 0x30 ≤ c.toNat ∧ c.toNat ≤ 0x39) →
    (∃ t b, exec (.encode pin rnd) s = .next t ∧ t.rsp = some (okResponse b) ∧
      exec (.decode b) t = .next { t with rsp := some (okResponse pin) }) ∧
    (∃ t b, exec (.encodeb pin rnd) s = .next t ∧ t.rsp = some (okResponse b) ∧
      exec (.decodeb b) t = .next { t with rsp := some (okResponse pin) })

/-- R128, R129, R148: for every legal PIN, letters included, DECODE of what ENCODE answers is the decimal
rendering of its digits; it is the PIN again exactly when the PIN has decimal digits only. -/
def Obligations.DecodedPinsAreRenderedDigits : Prop :=
  ∀ (pin : List Byte) (rnd : Draws) (s : State), 4 ≤ pin.length → pin.length ≤ 12 →
    (∀ c ∈ pin, ishex c = true) →
    ∃ t b v, exec (.encode pin rnd) s = .next t ∧ t.rsp = some (okResponse b) ∧
      exec (.decode b) t = .next { t with rsp := some (okResponse v) } ∧
      v = (pin.map hexval).flatMap decstr ∧
      (v = pin ↔ ∀ c ∈ pin, 0x30 ≤ c.toNat ∧ c.toNat ≤ 0x39)

/-- R148, last sentence: at the level of digits the round trip holds for every legal PIN:
`PINEXT(XOR16(XOR16(PINGEN s, P), P))` answers `hexval` of each character, for every field `P`. -/
def Obligations.DigitsRoundTripThroughTheUnits : Prop :=
  ∀ (pin : List Byte) (rnd : Draws) (p : Field16) (s : State), 4 ≤ pin.length → pin.length ≤ 12 →
    (∀ c ∈ pin, ishex c = true) →
    ∃ f c g, resultOf (.pingen pin rnd) s = some f ∧ resultOf (.xor16 (f ++ nibElems p.toList)) s = some c ∧
      resultOf (.xor16 (c ++ nibElems p.toList)) s = some g ∧
      resultOf (.pinext g) s = some (nibElems (pin.map hexval))

/-! ## Runs -/

/-- R55, R197: every operation completes: from every state whose host does only what can be done to a core
of its capacity, a run of any number of steps goes on. The list of what the host does is the model's own
field (assumption log 1), and a step after its last event is idle (assumption log 2). -/
def Obligations.PossibleHostsNeverStopTheCore : Prop :=
  ∀ (cap : Nat) (s : State) (k : Nat), Config.CapIn cap → s.SafeHost cap → SafeRun k s

/-- R50, R60, R176: in a run over everything the host does, every request gets exactly one response, delivered
to the caller that issued it, in the order of the requests; what a response holds is said by
`OperationsSeeTheLatestPanField`. `host` and `delivered` are the model's own fields (assumption log 1),
and that a reset keeps what was delivered is the model's choice (assumption log 7). -/
def Obligations.EveryRequestIsAnsweredToItsCaller : Prop :=
  ∀ (cap : Nat) (s : State), Config.CapIn cap → s.SafeHost cap →
    ∃ t ds, Sys2Proof.core.run s.host.length s = .next t ∧ t.host = [] ∧
      t.delivered = s.delivered ++ ds ∧ ds.map Prod.fst = s.host.filterMap HostEvent.caller?

/-- R50, R137(a), (e): the `PANF` an operation sees is the one written by the latest successful SETPAN
before it, or the reset value after a reset, or the one at the start: its response is the one it gives
in any state with that `PANF`. `host` and `delivered` are the model's own fields (assumption log 1). -/
def Obligations.OperationsSeeTheLatestPanField : Prop :=
  ∀ (cap : Nat) (s : State) (pre post : List HostEvent) (c : Nat) (q : Request) (i : Instr),
    Config.CapIn cap → s.SafeHost cap → s.host = pre ++ .request c q :: post → decodeRequest q = .ok i →
    ∃ (t u : State) (r : Response), Sys2Proof.core.run pre.length s = .next t ∧
      t.panf = panfAfter s.panf pre ∧ Sys2Proof.core.run (pre.length + 1) s = .next u ∧
      u.delivered = t.delivered ++ [(c, r)] ∧
      responseOf i { State.reset with panf := panfAfter s.panf pre } = some r

/-- R82: what the host presents for each software entry point is the request of its operation (or a reset,
or nothing), and the core decodes it as such. -/
def Obligations.EntryPointsPresentTheirOperation : Prop :=
  (∀ c : Nat, hostEvents c .getCodec = [.reset] ∧ hostEvents c (.setParameters none) = []) ∧
  ∀ (c : Nat) (p : List Byte) (rnd : Draws), p.length ≤ 4095 →
    ∀ ei ∈ [(EntryPoint.setParameters (some p), Instr.setpan p), (.encode p rnd, .encode p rnd),
        (.encodeToBytes p rnd, .encodeb p rnd), (.decode p, .decode p), (.decodeFromBytes p, .decodeb p),
        (.preparePan p, .panprep p)],
      ∃ q, hostEvents c ei.1 = [.request c q] ∧ decodeRequest q = .ok ei.2
end

