-- ==== Sys2Proof/Laws/Encoding.lean ====
section
/-! SUPPORT. The header fields, the randomness port and the operation codes: each encoding function
undone by its decoding function. -/

namespace Sys2Proof

@[simp] theorem headerOp_mkHeader (op : BitVec 4) (n : Nat) : headerOp (mkHeader op n) = op := by
  ext k hk
  have h := BitVec.getLsbD_append (x := op) (y := BitVec.ofNat 12 n) (i := 12 + k)
  simp only [headerOp, mkHeader, BitVec.getElem_extractLsb']
  exact h.trans (by simp [BitVec.getLsbD_eq_getElem hk])

theorem headerIlen_mkHeader (op : BitVec 4) {n : Nat} (h : n ≤ Config.maxLen) :
    headerIlen (mkHeader op n) = n := by
  have key : (mkHeader op n).extractLsb' 0 12 = BitVec.ofNat 12 n := by
    ext k hk
    have h := BitVec.getLsbD_append (x := op) (y := BitVec.ofNat 12 n) (i := 0 + k)
    simp only [mkHeader, BitVec.getElem_extractLsb']
    exact h.trans (by simp [hk])
  simp only [headerIlen, key, BitVec.toNat_ofNat]
  simp only [Config.maxLen] at h
  omega

/-- A header is what its two fields say. -/
theorem mkHeader_fields (h : Header) : mkHeader (headerOp h) (headerIlen h) = h := by
  simp only [headerIlen, mkHeader, headerOp, BitVec.ofNat_toNat, BitVec.setWidth_eq]
  ext k hk
  rw [BitVec.getElem_append]
  split
  · simp [BitVec.getLsbD_eq_getElem hk]
  · rename_i hlt
    simp only [BitVec.getElem_extractLsb']
    rw [Nat.add_sub_cancel' (Nat.le_of_not_lt hlt), BitVec.getLsbD_eq_getElem hk]

/-- `ilen` is a 12-bit number. -/
theorem headerIlen_le (h : Header) : headerIlen h ≤ Config.maxLen := by
  have := (h.extractLsb' 0 12).isLt
  simp only [headerIlen, Config.maxLen]
  omega

@[simp] theorem drawsOfPort_portOfDraws (r : Draws) : drawsOfPort (portOfDraws r) = r := by
  rcases r with ⟨⟨l⟩, h⟩
  match l, h with
  | [a, b, c, d, e, f, g, p, q, t], _ =>
    apply Vector.ext
    intro j hj
    simp only [drawsOfPort, portOfDraws, Vector.getElem_ofFn, Vector.toList, List.foldl]
    have := a.isLt; have := b.isLt; have := c.isLt; have := d.isLt; have := e.isLt
    have := f.isLt; have := g.isLt; have := p.isLt; have := q.isLt; have := t.isLt
    apply BitVec.eq_of_toNat_eq
    simp only [BitVec.extractLsb'_toNat, BitVec.toNat_ofNat, Nat.shiftRight_eq_div_pow]
    match j, hj with
    | 0, _ | 1, _ | 2, _ | 3, _ | 4, _ | 5, _ | 6, _ | 7, _ | 8, _ | 9, _ => simp; omega

/-- The decoder's verdict on an operation code is an instruction with that code and payload. -/
theorem decodeOp_payload (op : BitVec 4) (p : List Byte) (r : Draws) :
    (decodeOp op p r).payload = p := by
  unfold decodeOp; split <;> rfl

/-- The reserved codes 0xC to 0xF keep their two low bits. -/
theorem reserved_opcode : ∀ op : BitVec 4, 12 ≤ op.toNat →
    (0b11#2 ++ op.extractLsb' 0 2 : BitVec 4) = op := by decide

theorem decodeOp_opcode (op : BitVec 4) (p : List Byte) (r : Draws) :
    (decodeOp op p r).opcode = op := by
  unfold decodeOp
  split <;> try (rename_i h; exact BitVec.eq_of_toNat_eq h.symm)
  simp only [imp_false] at *
  exact reserved_opcode op (by omega)

/-- The draws of a decoded operation are those on the port, where it has draws. -/
theorem decodeOp_draws (op : BitVec 4) (p : List Byte) (r : Draws) {r' : Draws}
    (h : (decodeOp op p r).draws = some r') : r' = r := by
  revert h
  unfold decodeOp
  split <;> simp [Instr.draws] <;> exact Eq.symm

/-- `ilen` of the request whose bits are `w` is the length of its payload. -/
theorem requestOfBits_length (nbits w : Nat) :
    (requestOfBits nbits w).ibuf.length = headerIlen (requestOfBits nbits w).header := by
  simp [requestOfBits]

end Sys2Proof
end

