-- ==== Sys2Proof/Laws/Flags.lean ====
section
/-! SUPPORT. What the fields of a response header read as. -/

namespace Sys2Proof.Machine

@[simp] theorem status_okResponse (p : List Byte) : (okResponse p).status = 0 := by
  ext k hk
  have h := BitVec.getLsbD_append (x := 0#4) (y := BitVec.ofNat 12 p.length) (i := 12 + k)
  simp only [okResponse, Response.status, okHeader, BitVec.getElem_extractLsb']
  exact h.trans (by simp)

theorem olen_okResponse {p : List Byte} (h : p.length ≤ Config.maxLen) :
    (okResponse p).olen.toNat = p.length := by
  have : (okResponse p).olen = BitVec.ofNat 12 p.length := by
    ext k hk
    have h := BitVec.getLsbD_append (x := 0#4) (y := BitVec.ofNat 12 p.length) (i := 0 + k)
    simp only [okResponse, Response.olen, okHeader, BitVec.getElem_extractLsb']
    exact h.trans (by simp [hk])
  simp only [this, BitVec.toNat_ofNat]
  simp only [Config.maxLen] at h
  omega

@[simp] theorem obuf_okResponse (p : List Byte) : (okResponse p).obuf = p := rfl
@[simp] theorem obuf_errResponse (c : Cause) : (errResponse c).obuf = [] := rfl

@[simp] theorem status_errResponse (c : Cause) : (errResponse c).status = c.cls.status := by
  cases c <;> decide

@[simp] theorem cause_errResponse (c : Cause) : (errResponse c).cause = c.number := by
  cases c <;> decide

@[simp] theorem middle_errResponse (c : Cause) : (errResponse c).middle = 0 := by
  cases c <;> decide

@[simp] theorem status_ne_zero (k : ErrClass) : k.status ≠ 0 := by cases k <;> decide

/-- A success and an error are different responses. -/
theorem okResponse_ne_errResponse (p : List Byte) (c : Cause) : okResponse p ≠ errResponse c := by
  intro h
  have := congrArg Response.status h
  simp at this
  exact status_ne_zero _ this.symm

theorem okResponse_inj {p q : List Byte} (h : okResponse p = okResponse q) : p = q :=
  congrArg Response.obuf h

end Sys2Proof.Machine
end

