-- ==== Sys2Proof/Laws/Operands.lean ====
section
/-! SUPPORT. The small laws of operand conversion. -/

namespace Sys2Proof.Machine

@[simp] theorem hexval_hexup : ∀ v : Nib, hexval (hexup v) = v := by decide

@[simp] theorem ishex_hexup : ∀ v : Nib, ishex (hexup v) = true := by decide

@[simp] theorem lowNib_zext8 : ∀ v : Nib, lowNib (zext8 v) = v := by decide

@[simp] theorem highNib_zext8 : ∀ v : Nib, highNib (zext8 v) = 0 := by decide

@[simp] theorem nibElems_length (v : List Nib) : (nibElems v).length = v.length := by simp [nibElems]

@[simp] theorem map_lowNib_nibElems (v : List Nib) : (nibElems v).map lowNib = v := by
  simp [nibElems, Function.comp_def]

theorem decstr_length (v : Nib) : (decstr v).length = if 10 ≤ v.toNat then 2 else 1 := by
  revert v; decide

/-- A decimal character stands for its own numeral. -/
theorem decstr_hexval {c : Byte} (h : 0x30 ≤ c.toNat ∧ c.toNat ≤ 0x39) : decstr (hexval c) = [c] := by
  have key : ∀ c : Byte, 0x30 ≤ c.toNat ∧ c.toNat ≤ 0x39 → decstr (hexval c) = [c] := by decide
  exact key c h

theorem ishex_of_decimal {c : Byte} (h : 0x30 ≤ c.toNat ∧ c.toNat ≤ 0x39) : ishex c = true := by
  simp [ishex, h.1, h.2]

theorem allHex_iff (s : List Byte) : allHex s = true ↔ ∀ c ∈ s, ishex c = true := by
  simp [allHex]

theorem allHex_false_iff (s : List Byte) : allHex s = false ↔ ∃ c ∈ s, ishex c = false := by
  simp [allHex]

/-- Sixteen nibbles make the field that lists them. -/
theorem fieldOfList_toList {v : List Nib} (h : v.length = 16) : (fieldOfList v).toList = v := by
  apply List.ext_getElem
  · simp [h]
  · intro k h1 h2
    simp [fieldOfList, List.getD_eq_getElem?_getD, List.getElem?_eq_getElem h2]

@[simp] theorem fieldOfList_of_toList (f : Field16) : fieldOfList f.toList = f := by
  ext k hk
  simp [fieldOfList, List.getD_eq_getElem?_getD]

end Sys2Proof.Machine
end

