-- ==== Sys2Proof/Laws/State.lean ====
section
/-! SUPPORT. One lemma per field per update of the state, true by `rfl`. -/

namespace Sys2Proof.Machine

variable (s : State)

@[simp] theorem writePanf_panf (f : Field16) : (s.writePanf f).panf = f := rfl
@[simp] theorem writePanf_rsp (f : Field16) : (s.writePanf f).rsp = s.rsp := rfl
@[simp] theorem writePanf_host (f : Field16) : (s.writePanf f).host = s.host := rfl
@[simp] theorem writePanf_delivered (f : Field16) : (s.writePanf f).delivered = s.delivered := rfl

@[simp] theorem present_panf (r : Response) : (s.present r).panf = s.panf := rfl
@[simp] theorem present_rsp (r : Response) : (s.present r).rsp = some r := rfl
@[simp] theorem present_host (r : Response) : (s.present r).host = s.host := rfl
@[simp] theorem present_delivered (r : Response) : (s.present r).delivered = s.delivered := rfl

@[simp] theorem presentNext_panf (q : Request) : (s.presentNext q).panf = s.panf := rfl
@[simp] theorem presentNext_rsp (q : Request) : (s.presentNext q).rsp = s.rsp := rfl
@[simp] theorem presentNext_host (q : Request) : (s.presentNext q).host = .request 0 q :: s.host := rfl
@[simp] theorem presentNext_delivered (q : Request) : (s.presentNext q).delivered = s.delivered := rfl

@[simp] theorem resetCore_panf : (resetCore s).panf = State.reset.panf := rfl
@[simp] theorem resetCore_rsp : (resetCore s).rsp = s.rsp := rfl
@[simp] theorem resetCore_host : (resetCore s).host = s.host := rfl
@[simp] theorem resetCore_delivered : (resetCore s).delivered = s.delivered := rfl

@[simp] theorem idle_eq : idle s = s := rfl

theorem deliver_some {c : Nat} {r : Response} (h : s.rsp = some r) :
    s.deliver c = { s with rsp := none, delivered := s.delivered ++ [(c, r)] } := by
  simp [State.deliver, h]

/-- Delivery right after an answer: the answer goes out and the port is empty again. -/
@[simp] theorem present_deliver (c : Nat) (r : Response) :
    (s.present r).deliver c = { s with rsp := none, delivered := s.delivered ++ [(c, r)] } := rfl

@[simp] theorem deliver_panf (c : Nat) : (s.deliver c).panf = s.panf := by
  unfold State.deliver; split <;> rfl
@[simp] theorem deliver_host (c : Nat) : (s.deliver c).host = s.host := by
  unfold State.deliver; split <;> rfl
@[simp] theorem deliver_rsp (c : Nat) : (s.deliver c).rsp = none := by
  unfold State.deliver; split <;> simp_all

end Sys2Proof.Machine
end

