-- ==== Sys2Proof/Laws/Units.lean ====
section
/-! SUPPORT. One spec lemma per datapath unit: when it returns and what, when it raises and what. -/

namespace Sys2Proof.Machine

/-! ## PAN field extractor -/

theorem panField_short {s : List Byte} (h : s.length < 13) : panField s = .error .panShort := by
  simp [panField, Config.panMin, h]

theorem panField_char {s : List Byte} (hl : 13 ≤ s.length) (h : allHex s = false) :
    panField s = .error .panChar := by
  simp [panField, Config.panMin, h, Nat.not_lt.mpr hl]

theorem panNibbles_length {s : List Byte} (hl : 13 ≤ s.length) : (panNibbles s).length = 16 := by
  simp [panNibbles]; omega

/-- The PAN field lists four zeros and the twelve characters before the last one. -/
theorem panField_ok {s : List Byte} (hl : 13 ≤ s.length) (h : allHex s = true) :
    ∃ f, panField s = .ok f ∧ f.toList = panNibbles s := by
  simp only [panField, Config.panMin, Nat.not_lt.mpr hl, if_false, h]
  refine ⟨_, rfl, List.ext_getElem ?_ ?_⟩
  · simp [panNibbles_length hl]
  · intro k h1 h2
    rw [panNibbles_length hl] at h2
    simp only [Vector.getElem_toList, Vector.getElem_ofFn]
    match k with
    | 0 | 1 | 2 | 3 => rfl
    | k + 4 =>
      have hk : ¬ (k + 4 < Config.panZeros) := by simp
      simp only [hk, if_false, panNibbles, List.cons_append, List.nil_append, List.getElem_cons_succ,
        List.getElem_map, List.getElem_take, List.getElem_drop, Config.panZeros, Nat.add_sub_cancel]
      rw [List.getD_eq_getElem?_getD, List.getElem?_eq_getElem (by omega)]
      rfl

/-- Everything a PAN field extraction can be. -/
theorem panField_cases (s : List Byte) :
    (s.length < 13 ∧ panField s = .error .panShort) ∨
    (13 ≤ s.length ∧ allHex s = false ∧ panField s = .error .panChar) ∨
    (13 ≤ s.length ∧ allHex s = true ∧ ∃ f, panField s = .ok f ∧ f.toList = panNibbles s) := by
  rcases Nat.lt_or_ge s.length 13 with hl | hl
  · exact .inl ⟨hl, panField_short hl⟩
  · cases h : allHex s
    · exact .inr (.inl ⟨hl, rfl, panField_char hl h⟩)
    · exact .inr (.inr ⟨hl, rfl, panField_ok hl h⟩)

/-- Every PAN field begins with four zeros (R21, R94). -/
theorem panField_zeros {s : List Byte} {f : Field16} (h : panField s = .ok f) : PanfOk f := by
  rcases panField_cases s with ⟨-, h'⟩ | ⟨-, -, h'⟩ | ⟨-, -, g, h', hg⟩ <;> rw [h'] at h
  · cases h
  · cases h
  · cases h
    intro k
    simp only [fieldZ, hg, panNibbles]
    match k with
    | 0 | 1 | 2 | 3 => rfl

/-! ## PIN field generator -/

theorem pinField_length {s : List Byte} {r : Draws} (h : s.length < 4 ∨ 12 < s.length) :
    pinField s r = .error .pinLen := by
  simp [pinField, Config.pinMin, Config.pinMax, h]

theorem pinField_char {s : List Byte} {r : Draws} (h4 : 4 ≤ s.length) (h12 : s.length ≤ 12)
    (h : allHex s = false) : pinField s r = .error .pinChar := by
  have : ¬ (s.length < 4 ∨ s.length > 12) := by omega
  simp [pinField, Config.pinMin, Config.pinMax, this, h]

theorem pinNibbles_length {s : List Byte} (r : Draws) (h4 : 4 ≤ s.length) (h12 : s.length ≤ 12) :
    (pinNibbles s r).length = 16 := by
  simp [pinNibbles]; omega

/-- The PIN field lists the tag, the length, the digits and the draws. -/
theorem pinField_ok {s : List Byte} (r : Draws) (h4 : 4 ≤ s.length) (h12 : s.length ≤ 12)
    (h : allHex s = true) : ∃ f, pinField s r = .ok f ∧ f.toList = pinNibbles s r := by
  have hl : ¬ (s.length < 4 ∨ s.length > 12) := by omega
  simp only [pinField, Config.pinMin, Config.pinMax, hl, if_false, h]
  refine ⟨_, rfl, List.ext_getElem ?_ ?_⟩
  · simp [pinNibbles_length r h4 h12]
  · intro k h1 h2
    rw [pinNibbles_length r h4 h12] at h2
    simp only [Vector.getElem_toList, Vector.getElem_ofFn, Config.tag]
    match k with
    | 0 => rfl
    | 1 => rfl
    | k + 2 =>
      simp only [pinNibbles, List.cons_append, List.getElem_cons_succ, List.nil_append]
      have e1 : ¬ (k + 2 = 0) := by omega
      have e2 : ¬ (k + 2 = 1) := by omega
      simp only [e1, e2, if_false]
      split
      · rename_i hk
        have hk' : k < s.length := by omega
        rw [List.getElem_append_left (by simpa using hk')]
        simp [List.getD_eq_getElem?_getD, List.getElem?_eq_getElem hk']
      · rename_i hk
        rw [List.getElem_append_right (by simp; omega)]
        simp only [List.length_map, List.getElem_take]
        rw [List.getD_eq_getElem?_getD, List.getElem?_eq_getElem (by simp; omega), Option.getD_some]
        congr 1
        omega

/-- Everything a PIN field generation can be. -/
theorem pinField_cases (s : List Byte) (r : Draws) :
    ((s.length < 4 ∨ 12 < s.length) ∧ pinField s r = .error .pinLen) ∨
    (4 ≤ s.length ∧ s.length ≤ 12 ∧ allHex s = false ∧ pinField s r = .error .pinChar) ∨
    (4 ≤ s.length ∧ s.length ≤ 12 ∧ allHex s = true ∧
      ∃ f, pinField s r = .ok f ∧ f.toList = pinNibbles s r) := by
  by_cases hl : s.length < 4 ∨ 12 < s.length
  · exact .inl ⟨hl, pinField_length hl⟩
  · have h4 : 4 ≤ s.length := by omega
    have h12 : s.length ≤ 12 := by omega
    cases h : allHex s
    · exact .inr (.inl ⟨h4, h12, rfl, pinField_char h4 h12 h⟩)
    · exact .inr (.inr ⟨h4, h12, rfl, pinField_ok r h4 h12 h⟩)

/-! ## Unpacker and packer -/

@[simp] theorem unpackBytes_length (b : List Byte) : (unpackBytes b).length = 2 * b.length := by
  induction b with
  | nil => rfl
  | cons x b ih => simp only [unpackBytes, List.flatMap_cons, List.length_append] at *; simp [ih]; omega

theorem packElems_odd {v : List Byte} (h : v.length % 2 = 1) : packElems v = .error .oddNibbles := by
  simp [packElems, h]

theorem packElems_even {v : List Byte} (h : v.length % 2 = 0) : packElems v = .ok (packPairs v) := by
  simp [packElems, h]

/-- Packing a pair of nibbles and reading it back. -/
theorem packPair_high : ∀ x y : Nib, highNib (((zext8 x &&& 0xF) <<< 4) ||| (zext8 y &&& 0xF)) = x := by
  decide

theorem packPair_low : ∀ x y : Nib, lowNib (((zext8 x &&& 0xF) <<< 4) ||| (zext8 y &&& 0xF)) = y := by
  decide

/-- A byte is its two nibbles. -/
theorem packPair_split : ∀ b : Byte,
    (((zext8 (highNib b) &&& 0xF) <<< 4) ||| (zext8 (lowNib b) &&& 0xF)) = b := by decide

theorem and_low_eq : ∀ e : Byte, e &&& 0xF = zext8 (lowNib e) &&& 0xF := by decide

@[simp] theorem packPairs_length : ∀ v : List Byte, (packPairs v).length = v.length / 2
  | [] => rfl
  | [_] => by simp [packPairs]
  | _ :: _ :: rest => by simp [packPairs, packPairs_length rest]; omega

/-! ## XOR combiner -/

theorem xorNibbles_length {a b : List Nib} (ha : a.length = 16) (hb : b.length = 16) :
    (xorNibbles a b).length = 16 := by simp [xorNibbles, ha, hb]

theorem xorField_length {a b : List Nib} (h : a.length ≠ 16 ∨ b.length ≠ 16) :
    xorField a b = .error .fieldLen := by simp only [xorField, Config.fieldNibbles, h, if_true]

/-- Two operands of 16 nibbles combine lane by lane. -/
theorem xorField_ok {a b : List Nib} (ha : a.length = 16) (hb : b.length = 16) :
    ∃ f, xorField a b = .ok f ∧ f.toList = xorNibbles a b := by
  have h : ¬ (a.length ≠ 16 ∨ b.length ≠ 16) := by simp [ha, hb]
  simp only [xorField, Config.fieldNibbles, h, if_false]
  refine ⟨_, rfl, List.ext_getElem ?_ ?_⟩
  · simp [xorNibbles_length ha hb]
  · intro k h1 h2
    rw [xorNibbles_length ha hb] at h2
    simp [xorNibbles, List.getD_eq_getElem?_getD, ha, hb]

/-- Exclusive OR with the same field twice changes nothing (R123(b)). -/
theorem xorNibbles_cancel {a b : List Nib} (h : a.length = b.length) :
    xorNibbles (xorNibbles a b) b = a := by
  induction a generalizing b with
  | nil => rfl
  | cons x a ih =>
    cases b with
    | nil => simp at h
    | cons y b =>
      have := ih (b := b) (by simpa using h)
      simp only [xorNibbles, List.zipWith_cons_cons] at *
      rw [this, BitVec.xor_assoc, BitVec.xor_self, BitVec.xor_zero]

/-! ## PIN digit extractor -/

/-- Everything a PIN digit extraction can be. -/
theorem pinExtract_cases (f : Field16) :
    (f[0] ≠ 3 ∧ pinExtract f = .error .badTag) ∨
    (f[0] = 3 ∧ (f[1].toNat < 4 ∨ 12 < f[1].toNat) ∧ pinExtract f = .error .badPinlen) ∨
    (f[0] = 3 ∧ 4 ≤ f[1].toNat ∧ f[1].toNat ≤ 12 ∧
      pinExtract f = .ok ((f.toList.drop 2).take f[1].toNat)) := by
  by_cases h0 : f[0] = 3
  · by_cases h1 : f[1].toNat < 4 ∨ 12 < f[1].toNat
    · exact .inr (.inl ⟨h0, h1, by unfold pinExtract; rw [if_neg (not_not.mpr h0), if_pos h1]⟩)
    · refine .inr (.inr ⟨h0, by omega, by omega, ?_⟩)
      unfold pinExtract
      rw [if_neg (not_not.mpr h0), if_neg h1]
  · exact .inl ⟨h0, if_pos h0⟩

/-! ## Chains -/

/-- Everything the encode chain can be: its `xor_field` never raises (R138, R163). -/
theorem encodeField_cases (s : List Byte) (r : Draws) (p : Field16) :
    ((s.length < 4 ∨ 12 < s.length) ∧ encodeField s r p = .error .pinLen) ∨
    (4 ≤ s.length ∧ s.length ≤ 12 ∧ allHex s = false ∧ encodeField s r p = .error .pinChar) ∨
    (4 ≤ s.length ∧ s.length ≤ 12 ∧ allHex s = true ∧
      ∃ c, encodeField s r p = .ok c ∧ c.toList = xorNibbles (pinNibbles s r) p.toList) := by
  rcases pinField_cases s r with ⟨h, e⟩ | ⟨h4, h12, h, e⟩ | ⟨h4, h12, h, f, e, hf⟩
  · exact .inl ⟨h, by simp [encodeField, e]⟩
  · exact .inr (.inl ⟨h4, h12, h, by simp [encodeField, e]⟩)
  · obtain ⟨c, hc, hl⟩ := xorField_ok (a := f.toList) (b := p.toList) (by simp) (by simp)
    exact .inr (.inr ⟨h4, h12, h, c, by simp only [encodeField, e, hc], by rw [hl, hf]⟩)

/-- Everything the decode chain can be on a block of 16 nibbles: its `xor_field` never raises
(R142, R163). -/
theorem decodeField_cases {c : List Nib} (p : Field16) (hc : c.length = 16) :
    ∃ f : Field16, f.toList = xorNibbles c p.toList ∧
    ((f[0] ≠ 3 ∧ decodeField c p = .error .badTag) ∨
     (f[0] = 3 ∧ (f[1].toNat < 4 ∨ 12 < f[1].toNat) ∧ decodeField c p = .error .badPinlen) ∨
     (f[0] = 3 ∧ 4 ≤ f[1].toNat ∧ f[1].toNat ≤ 12 ∧
       decodeField c p = .ok (pinString ((f.toList.drop 2).take f[1].toNat)))) := by
  obtain ⟨f, hx, hf⟩ := xorField_ok (b := p.toList) hc (by simp)
  refine ⟨f, hf, ?_⟩
  rcases pinExtract_cases f with ⟨h0, e⟩ | ⟨h0, h1, e⟩ | ⟨h0, h4, h12, e⟩
  · exact .inl ⟨h0, by simp only [decodeField, hx, e]⟩
  · exact .inr (.inl ⟨h0, h1, by simp only [decodeField, hx, e]⟩)
  · exact .inr (.inr ⟨h0, h4, h12, by simp only [decodeField, hx, e]⟩)

end Sys2Proof.Machine
end

