-- ==== Sys2Proof/Laws/Ops.lean ====
section
/-! SUPPORT. What the shared endings of an operation do, and the one inversion lemma of `exec`: every
operation ends by presenting one response, and at most `PANF` and the port change. -/

namespace Sys2Proof.Machine

theorem answer_ok (p : List Byte) (s : State) :
    answer (.ok p) s = .next (s.present (okResponse p)) := rfl

theorem answer_error (c : Cause) (s : State) :
    answer (.error c) s = .next (s.present (errResponse c)) := rfl

/-- An answer presents a success with the payload or an error with the cause, nothing else. -/
theorem answer_cases (res : Except Cause (List Byte)) (s : State) :
    (∃ p, res = .ok p ∧ answer res s = .next (s.present (okResponse p))) ∨
    (∃ c, res = .error c ∧ answer res s = .next (s.present (errResponse c))) := by
  cases res with
  | ok p => exact .inl ⟨p, rfl, rfl⟩
  | error c => exact .inr ⟨c, rfl, rfl⟩

theorem answerField_cases (res : Except Cause Field16) (s : State) :
    (∃ f, res = .ok f ∧ answerField res s = .next (s.present (okResponse (nibElems f.toList)))) ∨
    (∃ c, res = .error c ∧ answerField res s = .next (s.present (errResponse c))) := by
  cases res with
  | ok f => exact .inl ⟨f, rfl, rfl⟩
  | error c => exact .inr ⟨c, rfl, rfl⟩

/-- An answer always ends in a next state that differs on the port only. -/
theorem answer_next (res : Except Cause (List Byte)) (s : State) :
    ∃ r, answer res s = .next (s.present r) := by
  cases res <;> exact ⟨_, rfl⟩

theorem answerField_next (res : Except Cause Field16) (s : State) :
    ∃ r, answerField res s = .next (s.present r) := by
  cases res <;> exact ⟨_, rfl⟩

theorem raise_next (c : Cause) (s : State) : ∃ r, raise c s = .next (s.present r) := ⟨_, rfl⟩

/-- SETPAN writes the PAN field of its string, or raises and writes nothing. -/
theorem execSetpan_cases (pan : List Byte) (s : State) :
    (∃ c, panField pan = .error c ∧ execSetpan pan s = .next (s.present (errResponse c))) ∨
    (∃ f, panField pan = .ok f ∧ execSetpan pan s = .next ((s.writePanf f).present (okResponse []))) := by
  cases h : panField pan with
  | error c => exact .inl ⟨c, rfl, by simp [execSetpan, h, raise]⟩
  | ok f => exact .inr ⟨f, rfl, by simp [execSetpan, h, respond]⟩

theorem execUnpack_cases (b : List Byte) (s : State) :
    (4095 < 2 * b.length ∧ execUnpack b s = .refused .overCapacity) ∨
    (2 * b.length ≤ 4095 ∧ execUnpack b s = .next (s.present (okResponse (nibElems (unpackBytes b))))) := by
  by_cases h : 4095 < 2 * b.length
  · exact .inl ⟨h, by simp [execUnpack, Config.maxLen, h]⟩
  · exact .inr ⟨by omega, by simp [execUnpack, Config.maxLen, h, respond]⟩

/-- Every operation but SETPAN and UNPACK ends by presenting a response and nothing else. -/
theorem exec_present (i : Instr) (s : State) (hs : writesPanf i = false)
    (hu : ∀ b, i ≠ .unpack b) : ∃ r, exec i s = .next (s.present r) := by
  cases i with
  | setpan p => simp [writesPanf] at hs
  | panprep p => exact answerField_next _ s
  | pingen p r => exact answerField_next _ s
  | unpack b => exact absurd rfl (hu b)
  | pack e => exact answer_next _ s
  | xor16 e => simp only [exec, execXor16]; split; exacts [raise_next _ s, answerField_next _ s]
  | pinext e => simp only [exec, execPinext]; split; exacts [raise_next _ s, answer_next _ s]
  | encode p r => exact answer_next _ s
  | encodeb p r => simp only [exec, execEncodeb]; split; exacts [raise_next _ s, answer_next _ s]
  | decode b =>
    simp only [exec, execDecode]
    split
    · exact raise_next _ s
    · split; exacts [raise_next _ s, answer_next _ s]
  | decodeb b => simp only [exec, execDecodeb]; split; exacts [raise_next _ s, answer_next _ s]
  | reserved0 p => exact raise_next _ s
  | reservedCToF o p => exact raise_next _ s

/-- What `exec` can do: refuse an UNPACK that no core can be presented with, or present one response
after writing at most `PANF`. -/
theorem exec_cases (i : Instr) (s : State) :
    ((∃ b, i = .unpack b ∧ 4095 < 2 * b.length) ∧ exec i s = .refused .overCapacity) ∨
    (∃ f r, exec i s = .next ((s.writePanf f).present r)) := by
  by_cases hs : writesPanf i = false
  · by_cases hu : ∃ b, i = .unpack b
    · obtain ⟨b, rfl⟩ := hu
      rcases execUnpack_cases b s with ⟨h, e⟩ | ⟨h, e⟩
      · exact .inl ⟨⟨b, rfl, h⟩, e⟩
      · exact .inr ⟨s.panf, _, e⟩
    · obtain ⟨r, e⟩ := exec_present i s hs fun b hb => hu ⟨b, hb⟩
      exact .inr ⟨s.panf, r, e⟩
  · cases i <;> simp [writesPanf] at hs
    rcases execSetpan_cases _ s with ⟨c, -, e⟩ | ⟨f, -, e⟩
    · exact .inr ⟨s.panf, _, e⟩
    · exact .inr ⟨f, _, e⟩

/-- No operation faults: the type of faults is empty. -/
theorem exec_no_fault (i : Instr) (s : State) (r : Fault) : exec i s ≠ .fault r := nomatch r

end Sys2Proof.Machine
end

