-- ==== Sys2Proof/Laws/PerInstr.lean ====
section
/-! SUPPORT. The family `EncodedHeader`: the header of an encoded instruction says its operation code,
and the number of its payload elements where that number fits. One lemma per constructor. -/

namespace Sys2Proof.Laws.EncodedHeader

/-- The header of an encoded instruction has the code of its operation and the length of its payload. -/
def Statement (i : Instr) : Prop :=
  headerOp (encodeRequest i).header = i.opcode ∧
  (i.wf = true → headerIlen (encodeRequest i).header = (encodeRequest i).ibuf.length)

theorem of_any (i : Instr) : Statement i := by
  refine ⟨headerOp_mkHeader _ _, fun h => headerIlen_mkHeader _ ?_⟩
  simp only [Instr.wf, Bool.and_eq_true, Instr.lengthFits, decide_eq_true_eq] at h
  exact h.1

theorem setpan (p : List Byte) : Statement (.setpan p) := of_any _
theorem panprep (p : List Byte) : Statement (.panprep p) := of_any _
theorem pingen (p : List Byte) (r : Draws) : Statement (.pingen p r) := of_any _
theorem unpack (b : List Byte) : Statement (.unpack b) := of_any _
theorem pack (e : List Byte) : Statement (.pack e) := of_any _
theorem xor16 (e : List Byte) : Statement (.xor16 e) := of_any _
theorem pinext (e : List Byte) : Statement (.pinext e) := of_any _
theorem encode (p : List Byte) (r : Draws) : Statement (.encode p r) := of_any _
theorem encodeb (p : List Byte) (r : Draws) : Statement (.encodeb p r) := of_any _
theorem decode (b : List Byte) : Statement (.decode b) := of_any _
theorem decodeb (b : List Byte) : Statement (.decodeb b) := of_any _
theorem reserved0 (p : List Byte) : Statement (.reserved0 p) := of_any _
theorem reservedCToF (o : BitVec 2) (p : List Byte) : Statement (.reservedCToF o p) := of_any _

end Sys2Proof.Laws.EncodedHeader
end

