-- ==== Sys2Proof/Laws/Step.lean ====
section
/-! SUPPORT. What one step can do, said once. -/

namespace Sys2Proof.Machine

theorem step_idle {s : State} (h : s.host = []) : step s = .next s := by simp [step, h]

theorem step_reset {s : State} {rest : List HostEvent} (h : s.host = .reset :: rest) :
    step s = .next { s with host := rest, panf := State.reset.panf } := by
  simp [step, h, resetCore, State.writePanf]

theorem step_malformed {s : State} {c : Nat} {q : Request} {rest : List HostEvent} {e : DecodeError}
    (h : s.host = .request c q :: rest) (hd : decodeRequest q = .error e) :
    step s = .refused .malformedRequest := by simp [step, h, hd]

/-- Everything a request of the host can lead to: a refusal by name, or one response delivered to its
caller after writing at most `PANF`. -/
theorem step_request_cases {s : State} {c : Nat} {q : Request} {rest : List HostEvent}
    (h : s.host = .request c q :: rest) :
    step s = .refused .malformedRequest ∨ step s = .refused .overCapacity ∨
    (∃ i f r, decodeRequest q = .ok i ∧
      exec i { s with host := rest } = .next (({ s with host := rest }.writePanf f).present r) ∧
      step s = .next { s with panf := f, rsp := none, host := rest, delivered := s.delivered ++ [(c, r)] }) := by
  cases hd : decodeRequest q with
  | error e => exact .inl (step_malformed h hd)
  | ok i =>
    rcases exec_cases i { s with host := rest } with ⟨-, e⟩ | ⟨f, r, e⟩
    · exact .inr (.inl (by simp [step, h, hd, e, deliverTo]))
    · refine .inr (.inr ⟨i, f, r, rfl, e, ?_⟩)
      simp [step, h, hd, e, deliverTo, State.writePanf]

/-- A step keeps the order of what the host does: it takes the first event, or there is none. -/
theorem step_host {s t : State} (h : step s = .next t) : t.host = s.host.tail := by
  cases hh : s.host with
  | nil => rw [step_idle hh] at h; cases h; simp [hh]
  | cons e rest =>
    cases e with
    | reset => rw [step_reset hh] at h; cases h; rfl
    | request c q =>
      rcases step_request_cases hh with e | e | ⟨i, f, r, -, -, e⟩ <;> rw [e] at h <;> cases h
      rfl

end Sys2Proof.Machine
end

