-- ==== Sys2Proof/Tests/Slice0.lean ====
section
/-! SUPPORT. Tests of the model against the spec's own words and vectors (`95_test_vectors.md`), the
well-formedness smoke test, and for every statement with hypotheses a witness that meets them. -/

namespace Sys2Proof.Tests

open Sys2Proof.Machine

/-- What one step does with one request of caller 1 on a core whose PAN field is `p`: the field after it
and what was delivered. -/
def served (p : Field16) (q : Request) : Option (Field16 × List (Nat × Response)) :=
  match step { State.reset with panf := p, host := [.request 1 q] } with
  | .next t => some (t.panf, t.delivered)
  | .fault _ => none
  | .refused _ => none

/-- What the decoder reads from a request. -/
def read (header : Header) (ibuf : List Byte) (rnd : BitVec 40) : Option Instr :=
  (decodeRequest ⟨header, ibuf, rnd⟩).toOption

/-- A state with a given PAN field. -/
def withPanf (p : Field16) : State := { State.reset with panf := p }

/-! ## Well-formedness: an ill-formed term for each check -/

theorem test_wf_refuses_long_payload : (Instr.setpan (List.replicate 4096 0)).wf = false := by
  simp only [Instr.wf, Instr.lengthFits, Instr.payload, List.length_replicate]; decide

theorem test_wf_refuses_long_result : (Instr.unpack (List.replicate 2048 0)).wf = false := by
  simp only [Instr.wf, Instr.lengthFits, Instr.payload, Instr.resultFits, List.length_replicate]; decide

theorem test_wf_accepts_longest : (Instr.unpack (List.replicate 2047 0)).wf = true ∧
    (Instr.setpan (List.replicate 4095 0)).wf = true := by
  simp only [Instr.wf, Instr.lengthFits, Instr.payload, Instr.resultFits, List.length_replicate]; decide

theorem test_presentable_refuses : (Instr.pack [1, 2, 3]).presentable 2 = false := by decide

theorem test_constants : Config.padMax = Config.fieldNibbles - 2 - Config.pinMin ∧
    Config.panZeros + Config.panDigits = Config.fieldNibbles ∧ Config.panMin = Config.panDigits + 1 ∧
    Config.defaultPan = ascii ['1', '1', '1', '1', '2', '2', '2', '2', '3', '3', '3', '3', '4', '4', '4', '4'] := by
  decide

/-! ## Decoding: one word of every constructor, written out from R61 and R63 (encoded requests of
`95_test_vectors.md`) -/

/-- Header `1000` with ilen 13. -/
theorem test_decode_setpan : read 0x100D [0x31, 0x32, 0x33, 0x34, 0x35, 0x36, 0x37, 0x38, 0x39, 0x30, 0x31, 0x32, 0x33] 0x0 =
    some (.setpan (ascii ['1', '2', '3', '4', '5', '6', '7', '8', '9', '0', '1', '2', '3'])) := by decide

/-- V2.3. -/
theorem test_decode_panprep : read 0x200D [0x31, 0x32, 0x33, 0x34, 0x35, 0x36, 0x37, 0x38, 0x39, 0x30, 0x31, 0x32, 0x67] 0x0 =
    some (.panprep (ascii ['1', '2', '3', '4', '5', '6', '7', '8', '9', '0', '1', '2', 'g'])) := by decide

/-- V3.1. -/
theorem test_decode_pingen : read 0x3004 [0x31, 0x32, 0x33, 0x34] 0x16409F8701 =
    some (.pingen (ascii ['1', '2', '3', '4']) #v[1, 6, 4, 0, 9, 15, 8, 7, 0, 1]) := by decide

/-- V4.2. -/
theorem test_decode_unpack : read 0x4001 [0xF0] 0x0 =
    some (.unpack [0xF0]) := by decide

/-- V4.7: high halves are kept in the syntax. -/
theorem test_decode_pack : read 0x5004 [0x13, 0xF4, 0xAB, 0x0C] 0x0 =
    some (.pack [0x13, 0xF4, 0xAB, 0x0C]) := by decide

/-- V4.20. -/
theorem test_decode_xor16 : read 0x6000 [] 0x0 =
    some (.xor16 []) := by decide

/-- Header `7000` with ilen 2. -/
theorem test_decode_pinext : read 0x7002 [0x33, 0x74] 0x0 =
    some (.pinext [0x33, 0x74]) := by decide

/-- V6.7. -/
theorem test_decode_encode : read 0x8003 [0x31, 0x32, 0x33] 0xFFFFFFFFFF =
    some (.encode (ascii ['1', '2', '3']) #v[15, 15, 15, 15, 15, 15, 15, 15, 15, 15]) := by decide

/-- V6.9. -/
theorem test_decode_encodeb : read 0x9004 [0x31, 0x32, 0x67, 0x34] 0x0 =
    some (.encodeb (ascii ['1', '2', 'g', '4']) #v[0, 0, 0, 0, 0, 0, 0, 0, 0, 0]) := by decide

/-- V5.34. -/
theorem test_decode_decode : read 0xA000 [] 0x0 =
    some (.decode []) := by decide

/-- V5.12. -/
theorem test_decode_decodeb : read 0xB008 [0x34, 0x12, 0x26, 0x34, 0x63, 0xAC, 0xB3, 0x45] 0x0 =
    some (.decodeb [0x34, 0x12, 0x26, 0x34, 0x63, 0xAC, 0xB3, 0x45]) := by decide

/-- V6.1. -/
theorem test_decode_reserved0 : read 0x0000 [] 0x0 =
    some (.reserved0 []) := by decide

/-- V6.3. -/
theorem test_decode_reservedC : read 0xC000 [] 0x0 =
    some (.reservedCToF 0 []) := by decide

/-- Header `F001`. -/
theorem test_decode_reservedF : read 0xF001 [0xFF] 0x0 =
    some (.reservedCToF 3 [0xFF]) := by decide

/-- A payload that is not `ilen` elements long is no request (R60, R61). -/
theorem test_decode_rejects_wrong_length : read 0x5003 [1, 2] 0 = none ∧ read 0x5001 [1, 2] 0 = none := by
  decide

/-- The opcode table's words with no operand bits set decode to their rows' instructions. -/
theorem test_table_words : decodeTableWord 16 0x1000 = some (.setpan []) ∧
    decodeTableWord 16 0x3002 = some (.pingen [0, 0] #v[0, 0, 0, 0, 0, 0, 0, 0, 0, 0]) ∧
    decodeTableWord 16 0x0000 = some (.reserved0 []) ∧
    decodeTableWord 16 0xD000 = some (.reservedCToF 1 []) ∧
    decodeTableWord 32 0xBA5002 = some (.pack [0xBA, 0]) := by decide

/-- The step of the prepared state performs the row's instruction first: `1000` answers
`LenError(PAN_SHORT)`, `1001` (header list of `95_test_vectors.md` section 6). -/
theorem test_fetch_word : (match step (State.reset.withFetchWord 16 0x1000) with
    | .next t => t.delivered
    | _ => []) = [(0, ⟨0x1001, []⟩)] := by decide

/-! ## One step, against the spec's vectors: at most two an operation -/

/-- V1.1a. -/
theorem test_setpan_replaces : served (fieldOfList [0x0, 0x0, 0x0, 0x0, 0x1, 0x2, 0x2, 0x2, 0x2, 0x3, 0x3, 0x3, 0x3, 0x4, 0x4, 0x4])
    ⟨0x1011, [0x34, 0x33, 0x32, 0x31, 0x39, 0x38, 0x37, 0x36, 0x35, 0x34, 0x33, 0x32, 0x31, 0x30, 0x39, 0x38, 0x37], 0x0⟩ =
    some ((fieldOfList [0x0, 0x0, 0x0, 0x0, 0x9, 0x8, 0x7, 0x6, 0x5, 0x4, 0x3, 0x2, 0x1, 0x0, 0x9, 0x8]),
      [(1, ⟨0x0000, []⟩)]) := by decide

/-- V2.15. -/
theorem test_setpan_failed_keeps : served (fieldOfList [0x0, 0x0, 0x0, 0x0, 0x4, 0x0, 0x0, 0x0, 0x0, 0x0, 0x1, 0x2, 0x3, 0x4, 0x5, 0x6])
    ⟨0x100D, [0x34, 0x30, 0x30, 0x30, 0x30, 0x30, 0x31, 0x32, 0x33, 0x34, 0x35, 0x36, 0x67], 0x0⟩ =
    some ((fieldOfList [0x0, 0x0, 0x0, 0x0, 0x4, 0x0, 0x0, 0x0, 0x0, 0x0, 0x1, 0x2, 0x3, 0x4, 0x5, 0x6]),
      [(1, ⟨0x2002, []⟩)]) := by decide

/-- V2.6. -/
theorem test_panprep_both_cases : served (fieldOfList [0x0, 0x0, 0x0, 0x0, 0x1, 0x2, 0x2, 0x2, 0x2, 0x3, 0x3, 0x3, 0x3, 0x4, 0x4, 0x4])
    ⟨0x200D, [0x41, 0x42, 0x43, 0x44, 0x45, 0x46, 0x61, 0x62, 0x63, 0x64, 0x65, 0x66, 0x30], 0x0⟩ =
    some ((fieldOfList [0x0, 0x0, 0x0, 0x0, 0x1, 0x2, 0x2, 0x2, 0x2, 0x3, 0x3, 0x3, 0x3, 0x4, 0x4, 0x4]),
      [(1, ⟨0x0010, [0x00, 0x00, 0x00, 0x00, 0x0A, 0x0B, 0x0C, 0x0D, 0x0E, 0x0F, 0x0A, 0x0B, 0x0C, 0x0D, 0x0E, 0x0F]⟩)]) := by decide

/-- V2.7. -/
theorem test_panprep_length_wins : served (fieldOfList [0x0, 0x0, 0x0, 0x0, 0x1, 0x2, 0x2, 0x2, 0x2, 0x3, 0x3, 0x3, 0x3, 0x4, 0x4, 0x4])
    ⟨0x200C, [0x67, 0x32, 0x33, 0x34, 0x35, 0x36, 0x37, 0x38, 0x39, 0x30, 0x31, 0x32], 0x0⟩ =
    some ((fieldOfList [0x0, 0x0, 0x0, 0x0, 0x1, 0x2, 0x2, 0x2, 0x2, 0x3, 0x3, 0x3, 0x3, 0x4, 0x4, 0x4]),
      [(1, ⟨0x1001, []⟩)]) := by decide

/-- V3.4. -/
theorem test_pingen_nine_draws : served (fieldOfList [0x0, 0x0, 0x0, 0x0, 0x1, 0x2, 0x2, 0x2, 0x2, 0x3, 0x3, 0x3, 0x3, 0x4, 0x4, 0x4])
    ⟨0x3005, [0x31, 0x32, 0x33, 0x34, 0x35], 0xABCDEF0129⟩ =
    some ((fieldOfList [0x0, 0x0, 0x0, 0x0, 0x1, 0x2, 0x2, 0x2, 0x2, 0x3, 0x3, 0x3, 0x3, 0x4, 0x4, 0x4]),
      [(1, ⟨0x0010, [0x03, 0x05, 0x01, 0x02, 0x03, 0x04, 0x05, 0x0A, 0x0B, 0x0C, 0x0D, 0x0E, 0x0F, 0x00, 0x01, 0x02]⟩)]) := by decide

/-- V3.11. -/
theorem test_pingen_length_12 : served (fieldOfList [0x0, 0x0, 0x0, 0x0, 0x1, 0x2, 0x2, 0x2, 0x2, 0x3, 0x3, 0x3, 0x3, 0x4, 0x4, 0x4])
    ⟨0x300C, [0x31, 0x32, 0x33, 0x34, 0x35, 0x36, 0x37, 0x38, 0x39, 0x30, 0x31, 0x32], 0xEF99999999⟩ =
    some ((fieldOfList [0x0, 0x0, 0x0, 0x0, 0x1, 0x2, 0x2, 0x2, 0x2, 0x3, 0x3, 0x3, 0x3, 0x4, 0x4, 0x4]),
      [(1, ⟨0x0010, [0x03, 0x0C, 0x01, 0x02, 0x03, 0x04, 0x05, 0x06, 0x07, 0x08, 0x09, 0x00, 0x01, 0x02, 0x0E, 0x0F]⟩)]) := by decide

/-- V4.5. -/
theorem test_unpack_high_first : served (fieldOfList [0x0, 0x0, 0x0, 0x0, 0x1, 0x2, 0x2, 0x2, 0x2, 0x3, 0x3, 0x3, 0x3, 0x4, 0x4, 0x4])
    ⟨0x4003, [0x00, 0xFF, 0xA5], 0x0⟩ =
    some ((fieldOfList [0x0, 0x0, 0x0, 0x0, 0x1, 0x2, 0x2, 0x2, 0x2, 0x3, 0x3, 0x3, 0x3, 0x4, 0x4, 0x4]),
      [(1, ⟨0x0006, [0x00, 0x00, 0x0F, 0x0F, 0x0A, 0x05]⟩)]) := by decide

/-- V4.7. -/
theorem test_pack_masks : served (fieldOfList [0x0, 0x0, 0x0, 0x0, 0x1, 0x2, 0x2, 0x2, 0x2, 0x3, 0x3, 0x3, 0x3, 0x4, 0x4, 0x4])
    ⟨0x5004, [0x13, 0xF4, 0xAB, 0x0C], 0x0⟩ =
    some ((fieldOfList [0x0, 0x0, 0x0, 0x0, 0x1, 0x2, 0x2, 0x2, 0x2, 0x3, 0x3, 0x3, 0x3, 0x4, 0x4, 0x4]),
      [(1, ⟨0x0002, [0x34, 0xBC]⟩)]) := by decide

/-- V4.10. -/
theorem test_pack_odd : served (fieldOfList [0x0, 0x0, 0x0, 0x0, 0x1, 0x2, 0x2, 0x2, 0x2, 0x3, 0x3, 0x3, 0x3, 0x4, 0x4, 0x4])
    ⟨0x5001, [0x07], 0x0⟩ =
    some ((fieldOfList [0x0, 0x0, 0x0, 0x0, 0x1, 0x2, 0x2, 0x2, 0x2, 0x3, 0x3, 0x3, 0x3, 0x4, 0x4, 0x4]),
      [(1, ⟨0x400B, []⟩)]) := by decide

/-- V4.16. -/
theorem test_xor16_masks : served (fieldOfList [0x0, 0x0, 0x0, 0x0, 0x1, 0x2, 0x2, 0x2, 0x2, 0x3, 0x3, 0x3, 0x3, 0x4, 0x4, 0x4])
    ⟨0x6020, [0x13, 0x24, 0x00, 0x00, 0x00, 0x00, 0x00, 0x00, 0x00, 0x00, 0x00, 0x00, 0x00, 0x00, 0x00, 0x00, 0xF1, 0x04, 0x00, 0x00, 0x00, 0x00, 0x00, 0x00, 0x00, 0x00, 0x00, 0x00, 0x00, 0x00, 0x00, 0x00], 0x0⟩ =
    some ((fieldOfList [0x0, 0x0, 0x0, 0x0, 0x1, 0x2, 0x2, 0x2, 0x2, 0x3, 0x3, 0x3, 0x3, 0x4, 0x4, 0x4]),
      [(1, ⟨0x0010, [0x02, 0x00, 0x00, 0x00, 0x00, 0x00, 0x00, 0x00, 0x00, 0x00, 0x00, 0x00, 0x00, 0x00, 0x00, 0x00]⟩)]) := by decide

/-- V4.19. -/
theorem test_xor16_one_field : served (fieldOfList [0x0, 0x0, 0x0, 0x0, 0x1, 0x2, 0x2, 0x2, 0x2, 0x3, 0x3, 0x3, 0x3, 0x4, 0x4, 0x4])
    ⟨0x6010, [0x01, 0x01, 0x01, 0x01, 0x01, 0x01, 0x01, 0x01, 0x01, 0x01, 0x01, 0x01, 0x01, 0x01, 0x01, 0x01], 0x0⟩ =
    some ((fieldOfList [0x0, 0x0, 0x0, 0x0, 0x1, 0x2, 0x2, 0x2, 0x2, 0x3, 0x3, 0x3, 0x3, 0x4, 0x4, 0x4]),
      [(1, ⟨0x400A, []⟩)]) := by decide

/-- V4.33. -/
theorem test_pinext_masks : served (fieldOfList [0x0, 0x0, 0x0, 0x0, 0x1, 0x2, 0x2, 0x2, 0x2, 0x3, 0x3, 0x3, 0x3, 0x4, 0x4, 0x4])
    ⟨0x7010, [0x33, 0x74, 0x81, 0x92, 0xA3, 0xB4, 0xC0, 0xC0, 0xC0, 0xC0, 0xC0, 0xC0, 0xC0, 0xC0, 0xC0, 0xC0], 0x0⟩ =
    some ((fieldOfList [0x0, 0x0, 0x0, 0x0, 0x1, 0x2, 0x2, 0x2, 0x2, 0x3, 0x3, 0x3, 0x3, 0x4, 0x4, 0x4]),
      [(1, ⟨0x0004, [0x01, 0x02, 0x03, 0x04]⟩)]) := by decide

/-- V4.35. -/
theorem test_pinext_length_wins : served (fieldOfList [0x0, 0x0, 0x0, 0x0, 0x1, 0x2, 0x2, 0x2, 0x2, 0x3, 0x3, 0x3, 0x3, 0x4, 0x4, 0x4])
    ⟨0x7011, [0x02, 0x04, 0x01, 0x02, 0x03, 0x04, 0x00, 0x00, 0x00, 0x00, 0x00, 0x00, 0x00, 0x00, 0x00, 0x00, 0x00], 0x0⟩ =
    some ((fieldOfList [0x0, 0x0, 0x0, 0x0, 0x1, 0x2, 0x2, 0x2, 0x2, 0x3, 0x3, 0x3, 0x3, 0x4, 0x4, 0x4]),
      [(1, ⟨0x400A, []⟩)]) := by decide

/-- V1.2c. -/
theorem test_encode_other_pan : served (fieldOfList [0x0, 0x0, 0x0, 0x0, 0x9, 0x8, 0x7, 0x6, 0x5, 0x4, 0x3, 0x2, 0x1, 0x0, 0x9, 0x8])
    ⟨0x8004, [0x31, 0x32, 0x33, 0x34], 0x78A80616F4⟩ =
    some ((fieldOfList [0x0, 0x0, 0x0, 0x0, 0x9, 0x8, 0x7, 0x6, 0x5, 0x4, 0x3, 0x2, 0x1, 0x0, 0x9, 0x8]),
      [(1, ⟨0x0010, [0x33, 0x34, 0x31, 0x32, 0x41, 0x43, 0x30, 0x45, 0x46, 0x43, 0x33, 0x34, 0x30, 0x36, 0x36, 0x43]⟩)]) := by decide

/-- V6.10. -/
theorem test_encode_length_12 : served (fieldOfList [0x0, 0x0, 0x0, 0x0, 0x1, 0x2, 0x2, 0x2, 0x2, 0x3, 0x3, 0x3, 0x3, 0x4, 0x4, 0x4])
    ⟨0x800C, [0x31, 0x32, 0x33, 0x34, 0x35, 0x36, 0x37, 0x38, 0x39, 0x30, 0x31, 0x32], 0xEF12345678⟩ =
    some ((fieldOfList [0x0, 0x0, 0x0, 0x0, 0x1, 0x2, 0x2, 0x2, 0x2, 0x3, 0x3, 0x3, 0x3, 0x4, 0x4, 0x4]),
      [(1, ⟨0x0010, [0x33, 0x43, 0x31, 0x32, 0x32, 0x36, 0x37, 0x34, 0x35, 0x42, 0x41, 0x33, 0x32, 0x36, 0x41, 0x42]⟩)]) := by decide

/-- V5.11. -/
theorem test_encodeb_bytes : served (fieldOfList [0x0, 0x0, 0x0, 0x0, 0x1, 0x2, 0x2, 0x2, 0x2, 0x3, 0x3, 0x3, 0x3, 0x4, 0x4, 0x4])
    ⟨0x9004, [0x31, 0x32, 0x33, 0x34], 0x16409F8701⟩ =
    some ((fieldOfList [0x0, 0x0, 0x0, 0x0, 0x1, 0x2, 0x2, 0x2, 0x2, 0x3, 0x3, 0x3, 0x3, 0x4, 0x4, 0x4]),
      [(1, ⟨0x0008, [0x34, 0x12, 0x26, 0x34, 0x63, 0xAC, 0xB3, 0x45]⟩)]) := by decide

/-- V1.8b. -/
theorem test_encodeb_too_long : served (fieldOfList [0x0, 0x0, 0x0, 0x0, 0x1, 0x2, 0x2, 0x2, 0x2, 0x3, 0x3, 0x3, 0x3, 0x4, 0x4, 0x4])
    ⟨0x900D, [0x31, 0x32, 0x33, 0x34, 0x35, 0x36, 0x37, 0x38, 0x39, 0x30, 0x31, 0x32, 0x33], 0x0⟩ =
    some ((fieldOfList [0x0, 0x0, 0x0, 0x0, 0x1, 0x2, 0x2, 0x2, 0x2, 0x3, 0x3, 0x3, 0x3, 0x4, 0x4, 0x4]),
      [(1, ⟨0x1003, []⟩)]) := by decide

/-- V5.30. -/
theorem test_decode_two_character_digits : served (fieldOfList [0x0, 0x0, 0x0, 0x0, 0x1, 0x2, 0x2, 0x2, 0x2, 0x3, 0x3, 0x3, 0x3, 0x4, 0x4, 0x4])
    ⟨0xA010, [0x33, 0x34, 0x46, 0x46, 0x46, 0x46, 0x46, 0x46, 0x46, 0x46, 0x46, 0x46, 0x46, 0x46, 0x46, 0x46], 0x0⟩ =
    some ((fieldOfList [0x0, 0x0, 0x0, 0x0, 0x1, 0x2, 0x2, 0x2, 0x2, 0x3, 0x3, 0x3, 0x3, 0x4, 0x4, 0x4]),
      [(1, ⟨0x0008, [0x31, 0x35, 0x31, 0x35, 0x31, 0x34, 0x31, 0x33]⟩)]) := by decide

/-- V5.33. -/
theorem test_decode_char_before_tag : served (fieldOfList [0x0, 0x0, 0x0, 0x0, 0x1, 0x2, 0x2, 0x2, 0x2, 0x3, 0x3, 0x3, 0x3, 0x4, 0x4, 0x4])
    ⟨0xA010, [0x67, 0x34, 0x31, 0x32, 0x32, 0x36, 0x33, 0x34, 0x36, 0x33, 0x41, 0x43, 0x42, 0x33, 0x34, 0x35], 0x0⟩ =
    some ((fieldOfList [0x0, 0x0, 0x0, 0x0, 0x1, 0x2, 0x2, 0x2, 0x2, 0x3, 0x3, 0x3, 0x3, 0x4, 0x4, 0x4]),
      [(1, ⟨0x2006, []⟩)]) := by decide

/-- V5.13. -/
theorem test_decodeb_length_12 : served (fieldOfList [0x0, 0x0, 0x0, 0x0, 0x1, 0x2, 0x2, 0x2, 0x2, 0x3, 0x3, 0x3, 0x3, 0x4, 0x4, 0x4])
    ⟨0xB008, [0x3C, 0x12, 0x26, 0x74, 0x5B, 0xA3, 0x26, 0xAB], 0x0⟩ =
    some ((fieldOfList [0x0, 0x0, 0x0, 0x0, 0x1, 0x2, 0x2, 0x2, 0x2, 0x3, 0x3, 0x3, 0x3, 0x4, 0x4, 0x4]),
      [(1, ⟨0x000C, [0x31, 0x32, 0x33, 0x34, 0x35, 0x36, 0x37, 0x38, 0x39, 0x30, 0x31, 0x32]⟩)]) := by decide

/-- V5.21. -/
theorem test_decodeb_tag_wins : served (fieldOfList [0x0, 0x0, 0x0, 0x0, 0x1, 0x2, 0x2, 0x2, 0x2, 0x3, 0x3, 0x3, 0x3, 0x4, 0x4, 0x4])
    ⟨0xB008, [0x2D, 0x12, 0x26, 0x34, 0x63, 0xAC, 0xB3, 0x45], 0x0⟩ =
    some ((fieldOfList [0x0, 0x0, 0x0, 0x0, 0x1, 0x2, 0x2, 0x2, 0x2, 0x3, 0x3, 0x3, 0x3, 0x4, 0x4, 0x4]),
      [(1, ⟨0x3008, []⟩)]) := by decide

/-- V6.2. -/
theorem test_reserved0_ignores_payload : served (fieldOfList [0x0, 0x0, 0x0, 0x0, 0x1, 0x2, 0x2, 0x2, 0x2, 0x3, 0x3, 0x3, 0x3, 0x4, 0x4, 0x4])
    ⟨0x0010, [0x31, 0x31, 0x31, 0x31, 0x32, 0x32, 0x32, 0x32, 0x33, 0x33, 0x33, 0x33, 0x34, 0x34, 0x34, 0x34], 0x0⟩ =
    some ((fieldOfList [0x0, 0x0, 0x0, 0x0, 0x1, 0x2, 0x2, 0x2, 0x2, 0x3, 0x3, 0x3, 0x3, 0x4, 0x4, 0x4]),
      [(1, ⟨0x500C, []⟩)]) := by decide

/-- V6.4. -/
theorem test_reservedCToF : served (fieldOfList [0x0, 0x0, 0x0, 0x0, 0x1, 0x2, 0x2, 0x2, 0x2, 0x3, 0x3, 0x3, 0x3, 0x4, 0x4, 0x4])
    ⟨0xD004, [0x31, 0x32, 0x33, 0x34], 0x0⟩ =
    some ((fieldOfList [0x0, 0x0, 0x0, 0x0, 0x1, 0x2, 0x2, 0x2, 0x2, 0x3, 0x3, 0x3, 0x3, 0x4, 0x4, 0x4]),
      [(1, ⟨0x500C, []⟩)]) := by decide

/-- P7, step 3: a reset between transactions puts the default PAN field back and answers nothing. -/
theorem test_reset_event : (match step { withPanf (fieldOfList [0x0, 0x0, 0x0, 0x0, 0x9, 0x8, 0x7, 0x6, 0x5, 0x4, 0x3, 0x2, 0x1, 0x0, 0x9, 0x8]) with host := [.reset] } with
    | .next t => some (t.panf, t.delivered, t.host)
    | _ => none) = some ((fieldOfList [0x0, 0x0, 0x0, 0x0, 0x1, 0x2, 0x2, 0x2, 0x2, 0x3, 0x3, 0x3, 0x3, 0x4, 0x4, 0x4]), [], []) := by decide

/-! ## Written forms (R80) -/

/-- The line of R80 for PINGEN, and its encoded form (R99). -/
theorem test_asm_pingen : asmLine (.pingen (ascii ['1', '2', '3', '4']) #v[1, 6, 4, 0, 9, 15, 8, 7, 0, 1]) =
      some (ascii ['P', 'I', 'N', 'G', 'E', 'N', ' ', '"', '1', '2', '3', '4', '"', ',', ' ', 'r', 'n', 'd', '=', '[', '1', ',', '6', ',', '4', ',', '0', ',', '9', ',', 'F', ',', '8', ',', '7', ',', '0', ',', '1', ']']) ∧
    encodedText (.pingen (ascii ['1', '2', '3', '4']) #v[1, 6, 4, 0, 9, 15, 8, 7, 0, 1]) =
      ascii ['3', '0', '0', '4', ':', ' ', '3', '1', ' ', '3', '2', ' ', '3', '3', ' ', '3', '4', ' ', ';', ' ', 'r', 'n', 'd', '=', '1', '6', '4', '0', '9', 'F', '8', '7', '0', '1'] := by decide

/-- V4.7 and V4.9: braces, and an error response. -/
theorem test_asm_pack : asmLine (.pack [0x13, 0xF4]) =
      some (ascii ['P', 'A', 'C', 'K', ' '] ++ [0x7B] ++ ascii ['1', '3', ' ', 'F', '4'] ++ [0x7D]) ∧
    errText .oddNibbles = ascii ['-', '>', ' ', 'I', 'n', 't', 'e', 'r', 'n', 'a', 'l', 'E', 'r', 'r', 'o', 'r', '(', 'O', 'D', 'D', '_', 'N', 'I', 'B', 'B', 'L', 'E', 'S', ')'] := by decide

/-- R82: `setParameters` with the key `pan` presents SETPAN; without it, nothing. -/
theorem test_entry_points : hostEvents 4 (.setParameters (some [0x31])) = [.request 4 ⟨0x1001, [0x31], 0⟩] ∧
    hostEvents 4 (.setParameters none) = [] := by decide
/-! ## Witnesses: concrete states and operands that meet the hypotheses of each statement, at boundary
values of each clause -/

/-- The shortest and a longer legal PAN string. -/
def pan13 : List Byte := ascii ['1', '2', '3', '4', '5', '6', '7', '8', '9', '0', '1', '2', '3']
/-- Legal PIN strings of least and greatest length, and one with letters. -/
def pin4 : List Byte := ascii ['1', '2', '3', '4']
def pin12 : List Byte := ascii ['1', '2', '3', '4', '5', '6', '7', '8', '9', '0', '1', '2']
def pinAB : List Byte := ascii ['1', '2', 'A', 'b']
/-- Draws. -/
def draws0 : Draws := #v[1, 6, 4, 0, 9, 15, 8, 7, 0, 1]
/-- The block of V1.4, as characters and as bytes. -/
def blockStr : List Byte :=
  ascii ['3', '4', '1', '2', '2', '6', '3', '4', '6', '3', 'A', 'C', 'B', '3', '4', '5']
def blockBytes : List Byte := [0x34, 0x12, 0x26, 0x34, 0x63, 0xAC, 0xB3, 0x45]
/-- The block of V1.5, with length nibble 12. -/
def blockBytes12 : List Byte := [0x3C, 0x12, 0x26, 0x74, 0x5B, 0xA3, 0x26, 0xAB]
def blockStr12 : List Byte :=
  ascii ['3', 'C', '1', '2', '2', '6', '7', '4', '5', 'B', 'A', '3', '2', '6', 'A', 'B']
/-- A state whose host presents one PACK request. -/
def packing : State := { State.reset with host := [.request 2 ⟨0x5002, [1, 2], 0⟩] }

theorem witness_FieldImageIsBigEndian :
    packElems (nibElems State.reset.panf.toList) = .ok [0x00, 0x00, 0x12, 0x22, 0x23, 0x33, 0x34, 0x44] := rfl

theorem witness_DecodingUndoesEncoding : (Instr.pingen pin4 draws0).wf = true ∧
    (Instr.reservedCToF 3 []).wf = true ∧ (Instr.unpack (List.replicate 2047 0)).wf = true :=
  ⟨by decide, by decide, test_wf_accepts_longest.1⟩

theorem witness_EncodingUndoesDecoding :
    decodeRequest ⟨0x3004, pin4, 0x16409F8701⟩ = .ok (.pingen pin4 draws0) ∧
    (Instr.pingen pin4 draws0).format = .cr := by decide

theorem witness_EveryHeaderHasItsVerdict :
    ([] : List Byte).length = ((0xC000 : Header).extractLsb' 0 12).toNat ∧
    0xC ≤ ((0xC000 : Header).extractLsb' 12 4).toNat ∧ ((0xB000 : Header).extractLsb' 12 4) = 0xB ∧
    ((0x0000 : Header).extractLsb' 12 4) = 0x0 ∧
    ([] : List Byte).length ≠ ((0x5FFF : Header).extractLsb' 0 12).toNat := by decide

theorem witness_DrawsComeFromThePortInOrder :
    decodeRequest ⟨0x3004, pin4, 0x16409F8701⟩ = .ok (.pingen pin4 draws0) ∧
    (Instr.pingen pin4 draws0).draws = some draws0 ∧ draws0[(0 : Fin 10)] = 1 ∧ draws0[(9 : Fin 10)] = 1 := by
  decide

theorem witness_StepRunsTheDecodedRequest :
    packing.host = .request 2 ⟨0x5002, [1, 2], 0⟩ :: [] ∧
    decodeRequest ⟨0x5002, [1, 2], 0⟩ = .ok (.pack [1, 2]) ∧
    exec (.pack [1, 2]) { packing with host := [] } =
      .next { State.reset with rsp := some ⟨0x0001, [0x12]⟩ } := ⟨rfl, rfl, rfl⟩

/-- The refusing clause: any payload of 2048 elements with the header `4800`. -/
theorem witness_StepRunsTheDecodedRequest_refused (b : List Byte) (s : State) (h : b.length = 2048) :
    decodeRequest ⟨0x4800, b, 0⟩ = .ok (.unpack b) ∧ exec (.unpack b) s = .refused .overCapacity := by
  constructor
  · have hl : b.length = headerIlen 0x4800 := h.trans (by decide)
    unfold decodeRequest
    have ho : headerOp 0x4800 = 4 := by decide
    simp only [hl, if_true, ho]
    rfl
  · rcases execUnpack_cases b s with ⟨-, e⟩ | ⟨h', -⟩
    · exact e
    · omega

theorem witness_IdleAndMalformedSteps : State.reset.host = [] ∧
    ({ State.reset with host := [.request 0 ⟨0x5003, [1, 2], 0⟩] } : State).host =
      .request 0 ⟨0x5003, [1, 2], 0⟩ :: [] ∧
    ([1, 2] : List Byte).length ≠ ((0x5003 : Header).extractLsb' 0 12).toNat := by decide

theorem witness_ResetEventRestoresTheDefaultPanField :
    ({ State.reset with host := [.reset] } : State).host = .reset :: [] := rfl

theorem witness_StepsKeepThePanfInvariant : State.reset.Inv ∧ packing.Inv ∧
    (∃ t, step packing = .next t) ∧ (∃ t, exec (.setpan pan13) State.reset = .next t) :=
  ⟨by decide, by decide, ⟨_, rfl⟩, ⟨_, rfl⟩⟩

theorem witness_StepsLeaveThePortEmpty : packing.PortIdle ∧ ∃ t, step packing = .next t :=
  ⟨rfl, _, rfl⟩

theorem witness_SetpanReplacesThePanField : 13 ≤ pan13.length ∧ ∀ c ∈ pan13, ishex c = true := by decide

theorem witness_PanprepAnswersThePanField :
    13 ≤ (0x67 :: pan13).length ∧ 13 ≤ (pan13 ++ pan13).length ∧ ∀ c ∈ pan13 ++ pan13, ishex c = true := by decide

theorem witness_PingenAnswersThePinField :
    4 ≤ pin4.length ∧ pin4.length ≤ 12 ∧ (∀ c ∈ pin4, ishex c = true) ∧
    4 ≤ pin12.length ∧ pin12.length ≤ 12 ∧ (∀ c ∈ pin12, ishex c = true) := by decide

theorem witness_UnpackAnswersTheNibbles : 2 * blockBytes.length ≤ 4095 ∧
    2 * (List.replicate 2047 (0 : Byte)).length ≤ 4095 ∧ 4095 < 2 * (List.replicate 2048 (0 : Byte)).length := by
  simp only [List.length_replicate]; decide

theorem witness_PackAnswersTheBytes : ([] : List Byte).length % 2 = 0 ∧ ([7] : List Byte).length % 2 = 1 := by
  decide

theorem witness_Xor16AnswersTheExclusiveOr : (List.replicate 32 (0xF5 : Byte)).length = 32 ∧
    (List.replicate 31 (0 : Byte)).length ≠ 32 ∧ (List.replicate 33 (0 : Byte)).length ≠ 32 := by decide

/-- Length nibbles 4 and 12, high halves set. -/
theorem witness_PinextAnswersTheDigits :
    (0xF3 :: 0x74 :: List.replicate 14 (0x11 : Byte)).length = 16 ∧ (0xF3#8 &&& 0xF) = 3 ∧
    (0x74#8 &&& 0xF).toNat = 4 ∧ (0x0C#8 &&& 0xF).toNat = 12 := by decide

theorem witness_EncodeAnswersTheBlockString :
    4 ≤ pinAB.length ∧ pinAB.length ≤ 12 ∧ (∀ c ∈ pinAB, ishex c = true) ∧
    pin12.length ≤ 12 ∧ (∀ c ∈ pin12, ishex c = true) := by decide

theorem witness_EncodebAnswersTheBlockBytes :
    4 ≤ pin12.length ∧ pin12.length ≤ 12 ∧ ∀ c ∈ pin12, ishex c = true := by decide

theorem witness_DecodeAnswersThePinString :
    blockStr.length = 16 ∧ (∀ c ∈ blockStr, ishex c = true) ∧
    (xorNibbles (blockStr.map hexval) State.reset.panf.toList).getD 0 0 = 3 ∧
    ((xorNibbles (blockStr.map hexval) State.reset.panf.toList).getD 1 0).toNat = 4 ∧
    blockStr12.length = 16 ∧ (∀ c ∈ blockStr12, ishex c = true) ∧
    (xorNibbles (blockStr12.map hexval) State.reset.panf.toList).getD 0 0 = 3 ∧
    ((xorNibbles (blockStr12.map hexval) State.reset.panf.toList).getD 1 0).toNat = 12 := by decide

theorem witness_DecodebAnswersThePinString :
    blockBytes.length = 8 ∧
    (xorNibbles (blockBytes.flatMap fun x => [highNib x, lowNib x]) State.reset.panf.toList).getD 0 0 = 3 ∧
    ((xorNibbles (blockBytes.flatMap fun x => [highNib x, lowNib x]) State.reset.panf.toList).getD 1 0).toNat = 4 ∧
    ((xorNibbles (blockBytes12.flatMap fun x => [highNib x, lowNib x]) State.reset.panf.toList).getD 1 0).toNat
      = 12 := by decide

theorem witness_ReservedCodesRaiseIllegalOp :
    ([0xFF] : List Byte).length = ((0x0001 : Header).extractLsb' 0 12).toNat ∧
    (0x0001 : Header).extractLsb' 12 4 = 0x0 ∧
    ([0xFF] : List Byte).length = ((0xC001 : Header).extractLsb' 0 12).toNat ∧
    0xC ≤ ((0xC001 : Header).extractLsb' 12 4).toNat ∧ 0xC ≤ ((0xF001 : Header).extractLsb' 12 4).toNat := by
  decide

theorem witness_PanErrors : (pan13.drop 1).length < 13 ∧ 13 ≤ (0x67 :: pan13.drop 1).length ∧
    ∃ c ∈ (0x67#8 :: pan13.drop 1), ishex c = false := by decide

theorem witness_PinErrors : (pin4.drop 1).length < 4 ∧ 12 < pan13.length ∧ 4 ≤ (0x20 :: pin4.drop 1).length ∧
    (0x20 :: pin4.drop 1).length ≤ 12 ∧ ∃ c ∈ (0x20#8 :: pin4.drop 1), ishex c = false := by decide

/-- Lengths 15, 17, 7 and 9; a character that is no hex digit; tag 2; lengths 3 and 13. -/
theorem witness_BlockErrors : (blockStr.drop 1).length ≠ 16 ∧ (0x30 :: blockStr).length ≠ 16 ∧
    (blockBytes.drop 1).length ≠ 8 ∧ (0 :: blockBytes).length ≠ 8 ∧
    (0x67 :: blockStr.drop 1).length = 16 ∧ (∃ c ∈ (0x67#8 :: blockStr.drop 1), ishex c = false) ∧
    (∀ c ∈ (0x32#8 :: blockStr.drop 1), ishex c = true) ∧
    (xorNibbles ((0x32 :: blockStr.drop 1).map hexval) State.reset.panf.toList).getD 0 0 ≠ 3 ∧
    ((xorNibbles ((0x33 :: 0x33 :: blockStr.drop 2).map hexval) State.reset.panf.toList).getD 1 0).toNat < 4 ∧
    12 < ((xorNibbles ((0x33 :: 0x44 :: blockStr.drop 2).map hexval) State.reset.panf.toList).getD 1 0).toNat ∧
    (xorNibbles ((0x24#8 :: blockBytes.drop 1).flatMap fun x => [highNib x, lowNib x])
      State.reset.panf.toList).getD 0 0 ≠ 3 ∧
    ((xorNibbles ((0x33#8 :: blockBytes.drop 1).flatMap fun x => [highNib x, lowNib x])
      State.reset.panf.toList).getD 1 0).toNat < 4 := by decide

theorem witness_PinextErrors : (List.replicate 15 (0 : Byte)).length ≠ 16 ∧ (List.replicate 17 (0 : Byte)).length ≠ 16 ∧
    (0x32#8 &&& 0xF) ≠ 3 ∧ (0x33#8 &&& 0xF) = 3 ∧ (0x73#8 &&& 0xF).toNat < 4 ∧ 12 < (0x4D#8 &&& 0xF).toNat := by
  decide

theorem witness_CausesOfEachOperation : (∃ t, exec (.pack [7]) State.reset = .next t ∧
      t.rsp = some (errResponse .oddNibbles)) ∧ (errResponse .oddNibbles).status ≠ 0 ∧
    Cause.oddNibbles ∈ causesOf (.pack []) := ⟨⟨_, rfl, rfl⟩, by decide, by decide⟩

theorem witness_FailedOperationsChangeNothing : (∃ t, exec (.setpan [0x31]) State.reset = .next t ∧
      t.rsp = some (errResponse .panShort)) ∧ (errResponse .panShort).status ≠ 0 ∧
    (∃ t, exec (.encode [0x31] draws0) State.reset = .next t ∧ t.rsp = some (errResponse .pinLen)) ∧
    (∃ t, exec (.pingen [0x31] draws0) State.reset = .next t ∧ t.rsp = some (errResponse .pinLen)) ∧
    (∃ t, exec (.encodeb [0x31] draws0) State.reset = .next t ∧ t.rsp = some (errResponse .pinLen)) ∧
    (errResponse .pinLen).status ≠ 0 :=
  ⟨⟨_, rfl, rfl⟩, by decide, ⟨_, rfl, rfl⟩, ⟨_, rfl, rfl⟩, ⟨_, rfl, rfl⟩, by decide⟩

theorem witness_EveryOperationAnswersOnce : (Instr.decode blockStr).wf = true ∧ (Instr.unpack []).wf = true := by
  decide

theorem witness_ResultLengths : (∃ t r, exec (.decode blockStr) State.reset = .next t ∧ t.rsp = some r ∧
      r.status = 0) ∧ (∃ t r, exec (.decodeb blockBytes12) State.reset = .next t ∧ t.rsp = some r ∧ r.status = 0) ∧
    (∃ t r, exec (.unpack [0xF0]) State.reset = .next t ∧ t.rsp = some r ∧ r.status = 0) :=
  ⟨⟨_, _, rfl, rfl, rfl⟩, ⟨_, _, rfl, rfl, rfl⟩, ⟨_, _, rfl, rfl, rfl⟩⟩

theorem witness_NibbleElementsAreMasked :
    ([0x13, 0xF4] : List Byte).map (fun x => x &&& 0xF) = ([0x03, 0x24] : List Byte).map (fun x => x &&& 0xF) ∧
    (Instr.panprep pan13).resultKind = .nibbles ∧
    ∃ t r, exec (.panprep pan13) State.reset = .next t ∧ t.rsp = some r := ⟨by decide, rfl, _, _, rfl, rfl⟩

theorem witness_OnlySetpanWritesPanf : (∀ pan, Instr.encode pin4 draws0 ≠ .setpan pan) ∧
    ∃ t, exec (.encode pin4 draws0) State.reset = .next t := ⟨(fun _ h => nomatch h), _, rfl⟩

theorem witness_AnswersDependOnOperandsAndPanfOnly : State.reset.panf = packing.panf ∧ State.reset ≠ packing ∧
    ∃ t, exec (.encode pin4 draws0) State.reset = .next t := ⟨rfl, by decide, _, rfl⟩

theorem witness_UnitOperationsIgnorePanf : readsPanf (.pingen pin4 draws0) = false ∧
    ∃ t, exec (.pingen pin4 draws0) State.reset = .next t := ⟨rfl, _, rfl⟩

/-- A PIN of 12 digits uses two draws. -/
theorem witness_UnusedDrawsAreIgnored :
    draws0.toList.take (14 - pin12.length) = (#v[1, 6, 0, 0, 0, 0, 0, 0, 0, 0] : Draws).toList.take (14 - pin12.length) ∧
    draws0 ≠ #v[1, 6, 0, 0, 0, 0, 0, 0, 0, 0] := by decide

theorem witness_PaddingIsNotLookedAt :
    (([3, 4, 1, 2, 3, 4] ++ List.replicate 10 0 : List Byte).take (2 + (lowNib 4).toNat) =
      ([3, 4, 1, 2, 3, 4] ++ List.replicate 10 9 : List Byte).take (2 + (lowNib 4).toNat)) ∧
    (((xorNibbles (unpackBytes blockBytes) State.reset.panf.toList).getD 1 0).toNat = 4 ∧
      (unpackBytes blockBytes).take (2 + 4) = (unpackBytes (blockBytes.take 3 ++ [0, 0, 0, 0, 0])).take (2 + 4) ∧
      (blockBytes.take 3 ++ [0, 0, 0, 0, 0]).length = 8) ∧
    (((xorNibbles (blockStr.map hexval) State.reset.panf.toList).getD 1 0).toNat = 4 ∧
      (blockStr.map hexval).take (2 + 4) = ((blockStr.take 6 ++ List.replicate 10 0x30).map hexval).take (2 + 4) ∧
      (∀ c ∈ blockStr.take 6 ++ List.replicate 10 0x30, ishex c = true) ∧
      (blockStr.take 6 ++ List.replicate 10 0x30).length = 16) := by decide

theorem witness_ResponsesFitTheCapacity : Config.CapIn 17 ∧ Config.CapIn 2047 ∧
    (Instr.decode blockStr).payload.length ≤ 17 := by decide

theorem witness_PackAndUnpackAreInverse : 2 * blockBytes.length ≤ 4095 ∧
    ([0x13, 0xF4] : List Byte).length ≤ 4095 ∧ ([0x13, 0xF4] : List Byte).length % 2 = 0 := by decide

theorem witness_BlocksShowTheirFirstFourNibbles : State.reset.Inv ∧
    ∃ t, exec (.encode pin4 draws0) State.reset = .next t ∧ t.rsp = some (okResponse blockStr) :=
  ⟨by decide, _, rfl, rfl⟩

theorem witness_AcceptedBlocks : State.reset.Inv ∧ (∃ v, resultOf (.decode blockStr) State.reset = some v) ∧
    (∃ v, resultOf (.decodeb blockBytes) State.reset = some v) := ⟨by decide, ⟨_, rfl⟩, ⟨_, rfl⟩⟩

/-- The block of V1.4 under the default PAN and under the PAN of V1.1 (V5.36). -/
theorem witness_WrongPanIsNotDetected :
    let other := withPanf (fieldOfList [0, 0, 0, 0, 9, 8, 7, 6, 5, 4, 3, 2, 1, 0, 9, 8])
    State.reset.Inv ∧ other.Inv ∧
    responseOf (.decode blockStr) State.reset = some ⟨0x0004, ascii ['1', '2', '3', '4']⟩ ∧
    responseOf (.decode blockStr) other = some ⟨0x0006, ascii ['1', '2', '1', '1', '1', '4']⟩ := by decide

theorem witness_EncodeIsTheChainOfUnits :
    (∃ f, resultOf (.pingen pin4 draws0) State.reset = some f) ∧
    (∃ r, responseOf (.pingen [] draws0) State.reset = some r ∧ r.status ≠ 0) :=
  ⟨⟨_, rfl⟩, ⟨_, rfl, by decide⟩⟩

theorem witness_DecodebIsTheChainOfUnits : blockBytes.length = 8 ∧
    (∃ d, resultOf (.pinext ([3, 4, 1, 2, 3, 4, 1, 6, 4, 0, 9, 15, 8, 7, 0, 1])) State.reset = some d) ∧
    (∃ r, responseOf (.pinext (List.replicate 16 0)) State.reset = some r ∧ r.status ≠ 0) :=
  ⟨by decide, ⟨_, rfl⟩, ⟨_, rfl, by decide⟩⟩

theorem witness_SetpanStoresWhatPanprepReturns :
    (∃ v, resultOf (.panprep pan13) State.reset = some v) ∧
    (∃ r, responseOf (.panprep []) State.reset = some r ∧ r.status ≠ 0) := ⟨⟨_, rfl⟩, ⟨_, rfl, by decide⟩⟩

theorem witness_DecodebIsDecodeOfTheRendering : blockBytes.length = 8 ∧ hexRendering blockBytes = blockStr := by
  decide

theorem witness_DecimalPinsRoundTrip : 4 ≤ pin12.length ∧ pin12.length ≤ 12 ∧
    (∀ c ∈ pin12, 0x30 ≤ c.toNat ∧ c.toNat ≤ 0x39) ∧ 4 ≤ pin4.length ∧
    (∀ c ∈ pin4, 0x30 ≤ c.toNat ∧ c.toNat ≤ 0x39) := by decide

theorem witness_DecodedPinsAreRenderedDigits : 4 ≤ pinAB.length ∧ pinAB.length ≤ 12 ∧
    (∀ c ∈ pinAB, ishex c = true) ∧ ¬ (∀ c ∈ pinAB, 0x30 ≤ c.toNat ∧ c.toNat ≤ 0x39) := by decide

theorem witness_DigitsRoundTripThroughTheUnits : 4 ≤ pinAB.length ∧ pinAB.length ≤ 12 ∧
    ∀ c ∈ pinAB, ishex c = true := by decide

/-- A host with a request of each kind of outcome and a reset. -/
def busy : State := { State.reset with host :=
  [.request 1 ⟨0x100D, pan13, 0⟩, .reset, .request 2 ⟨0xF000, [], 0⟩, .request 1 ⟨0x8004, pin4, 0x16409F8701⟩] }

theorem witness_PossibleHostsNeverStopTheCore : Config.CapIn 17 ∧ busy.SafeHost 17 := by decide

theorem witness_EveryRequestIsAnsweredToItsCaller : Config.CapIn 2047 ∧ busy.SafeHost 2047 ∧
    busy.host.filterMap HostEvent.caller? = [1, 2, 1] := by decide

theorem witness_OperationsSeeTheLatestPanField : Config.CapIn 17 ∧ busy.SafeHost 17 ∧
    busy.host = [.request 1 ⟨0x100D, pan13, 0⟩, .reset, .request 2 ⟨0xF000, [], 0⟩] ++
      .request 1 ⟨0x8004, pin4, 0x16409F8701⟩ :: [] ∧
    decodeRequest ⟨0x8004, pin4, 0x16409F8701⟩ = .ok (.encode pin4 draws0) ∧
    panfAfter State.reset.panf [.request 1 ⟨0x100D, pan13, 0⟩] =
      fieldOfList [0, 0, 0, 0, 1, 2, 3, 4, 5, 6, 7, 8, 9, 0, 1, 2] := ⟨by decide, by decide, rfl, rfl, by decide⟩

theorem witness_EntryPointsPresentTheirOperation : pin12.length ≤ 4095 := by decide

end Sys2Proof.Tests
end

section
/-! ## PROOFS: the step of a decoded request -/

namespace Sys2Proof.Machine

@[simp] theorem deliverTo_refused (c : Nat) (e : Refusal) :
    deliverTo c (.refused e) = .refused e := rfl

/-- A next state whose port holds `r` delivers `r` to the caller and leaves the port empty. -/
theorem deliverTo_next_some {c : Nat} {t : State} {r : Response} (hr : t.rsp = some r) :
    deliverTo c (.next t) = .next { t with rsp := none, delivered := t.delivered ++ [(c, r)] } :=
  congrArg Host.Outcome.next (deliver_some t hr)

/-- R6, R50: the whole step of a request that decodes, as the delivery of its operation's outcome. -/
theorem step_decoded {s : State} {c : Nat} {q : Request} {rest : List HostEvent} {i : Instr}
    (h : s.host = .request c q :: rest) (hd : decodeRequest q = .ok i) :
    step s = deliverTo c (exec i { s with host := rest }) := by
  simp [step, h, hd]

/-- Settles O8: the step is the operation followed by the delivery, and the delivery sends the response
on the port or passes the refusal on. -/
theorem stepRunsTheDecodedRequest : Obligations.StepRunsTheDecodedRequest := by
  intro s c q rest i h hd
  rw [step_decoded h hd]
  constructor
  · intro t r hexec hr
    rw [hexec, deliverTo_next_some hr]
  · intro e hexec
    rw [hexec, deliverTo_refused]

end Sys2Proof.Machine
end

section
/-! ## PROOFS: what operations and steps do to the state -/

namespace Sys2Proof.Machine

/-! ### Operations: the frame and the dependence on PANF -/

/-- An operation that ends presents one response, and before that writes nothing, or is a SETPAN and
writes the PAN field of its string. -/
theorem exec_next_cases {i : Instr} {s t : State} (h : exec i s = .next t) :
    (∃ r, t = s.present r) ∨
    (∃ pan f, i = .setpan pan ∧ panField pan = .ok f ∧ t = (s.writePanf f).present (okResponse [])) := by
  by_cases hs : writesPanf i = false
  · left
    by_cases hu : ∃ b, i = .unpack b
    · obtain ⟨b, rfl⟩ := hu
      rcases execUnpack_cases b s with ⟨-, e⟩ | ⟨-, e⟩ <;> cases e.symm.trans h
      exact ⟨_, rfl⟩
    · obtain ⟨r, e⟩ := exec_present i s hs fun b hb => hu ⟨b, hb⟩
      cases e.symm.trans h
      exact ⟨r, rfl⟩
  · cases i <;> simp [writesPanf] at hs
    case setpan pan =>
      rcases execSetpan_cases pan s with ⟨c, -, e⟩ | ⟨f, hf, e⟩ <;> cases e.symm.trans h
      · exact .inl ⟨_, rfl⟩
      · exact .inr ⟨pan, f, rfl, hf, rfl⟩

/-- On all the states whose `PANF` is `p`, `op` writes one and the same `PANF`, presents one and the same
response, and does nothing else. -/
def AnswersAt (p : Field16) (op : State → Outcome) : Prop :=
  ∃ f r, ∀ s : State, s.panf = p → op s = .next ((s.writePanf f).present r)

/-- Presenting a fixed response answers at every `PANF`: writing back the `PANF` that is there changes
nothing. -/
theorem answersAt_present (p : Field16) (r : Response) : AnswersAt p fun s => .next (s.present r) :=
  ⟨p, r, fun _ hp => hp ▸ rfl⟩

theorem answersAt_raise (p : Field16) (c : Cause) : AnswersAt p (raise c) := answersAt_present p _

theorem answersAt_answer (p : Field16) (res : Except Cause (List Byte)) : AnswersAt p (answer res) := by
  cases res <;> exact answersAt_present p _

theorem answersAt_answerField (p : Field16) (res : Except Cause Field16) :
    AnswersAt p (answerField res) := by
  cases res <;> exact answersAt_present p _

/-- A check of the operands alone chooses between two operations. -/
theorem AnswersAt.ite {p : Field16} {c : Prop} [Decidable c] {a b : State → Outcome}
    (ha : AnswersAt p a) (hb : AnswersAt p b) : AnswersAt p fun s => if c then a s else b s := by
  split
  · exact ha
  · exact hb

/-- An operation whose units read `PANF` once answers what they make of it (R50). -/
theorem answersAt_answer_panf (p : Field16) (units : Field16 → Except Cause (List Byte)) :
    AnswersAt p fun s => answer (units s.panf) s := by
  obtain ⟨f, r, h⟩ := answersAt_answer p (units p)
  refine ⟨f, r, ?_⟩
  rintro s rfl
  exact h s rfl

theorem answersAt_execSetpan (p : Field16) (pan : List Byte) : AnswersAt p (execSetpan pan) := by
  unfold execSetpan
  cases panField pan with
  | error c => exact answersAt_raise p c
  | ok f => exact ⟨f, _, fun _ _ => rfl⟩

theorem answersAt_execUnpack (p : Field16) {b : List Byte} (h : 2 * b.length ≤ 4095) :
    AnswersAt p (execUnpack b) := by
  have e : execUnpack b = fun s => .next (s.present (okResponse (nibElems (unpackBytes b)))) :=
    funext fun s => if_neg (Nat.not_lt.mpr h)
  exact e ▸ answersAt_present p _

/-- R141: ENCODEB is the chain of the encoder and the packer. -/
theorem execEncodeb_eq_answer (pin : List Byte) (rnd : Draws) (s : State) :
    execEncodeb pin rnd s =
      answer ((encodeField pin rnd s.panf).bind fun c => packElems (nibElems c.toList)) s := by
  unfold execEncodeb
  cases encodeField pin rnd s.panf <;> rfl

theorem answersAt_execEncodeb (p : Field16) (pin : List Byte) (rnd : Draws) :
    AnswersAt p (execEncodeb pin rnd) := by
  rw [funext (execEncodeb_eq_answer pin rnd)]
  exact answersAt_answer_panf p fun q => (encodeField pin rnd q).bind _

/-- R26, R29: every operation whose result a header can announce is determined by its operands and
`PANF`. -/
theorem exec_answersAt (i : Instr) (p : Field16) (h : i.resultFits = true) : AnswersAt p (exec i) := by
  cases i with
  | setpan pan => exact answersAt_execSetpan p pan
  | panprep pan => exact answersAt_answerField p _
  | pingen pin rnd => exact answersAt_answerField p _
  | unpack b => exact answersAt_execUnpack p (by simpa [Instr.resultFits] using h)
  | pack e => exact answersAt_answer p _
  | xor16 e => exact (answersAt_raise p _).ite (answersAt_answerField p _)
  | pinext e => exact (answersAt_raise p _).ite (answersAt_answer p _)
  | encode pin rnd => exact answersAt_answer_panf p fun q => (encodeField pin rnd q).map _
  | encodeb pin rnd => exact answersAt_execEncodeb p pin rnd
  | decode b =>
    exact (answersAt_raise p _).ite <| (answersAt_raise p _).ite <|
      answersAt_answer_panf p fun q => decodeField (b.map hexval) q
  | decodeb b =>
    exact (answersAt_raise p _).ite <|
      answersAt_answer_panf p fun q => decodeField (unpackBytes b) q
  | reserved0 _ => exact answersAt_raise p _
  | reservedCToF _ _ => exact answersAt_raise p _

/-- An operation that ends has a result that a header can announce: an UNPACK above it is refused. -/
theorem resultFits_of_exec_next {i : Instr} {s t : State} (h : exec i s = .next t) :
    i.resultFits = true := by
  cases i
  case unpack b =>
    rcases execUnpack_cases b s with ⟨-, e⟩ | ⟨hb, -⟩
    · cases e.symm.trans h
    · simpa [Instr.resultFits] using hb
  all_goals rfl

/-- Settles O37: every operation that ends presents a response only, unless it is a SETPAN. -/
theorem onlySetpanWritesPanf : Obligations.OnlySetpanWritesPanf := by
  intro i s t hi h
  rcases exec_next_cases h with ⟨r, rfl⟩ | ⟨pan, f, hpan, -, -⟩
  · rfl
  · exact absurd hpan (hi pan)

/-- Settles O38: at one `PANF` an operation writes the same `PANF` and presents the same response
whatever else the state holds. -/
theorem answersDependOnOperandsAndPanfOnly : Obligations.AnswersDependOnOperandsAndPanfOnly := by
  intro i s s' t hp h
  obtain ⟨f, r, hans⟩ := exec_answersAt i s.panf (resultFits_of_exec_next h)
  cases (hans s rfl).symm.trans h
  exact ⟨_, hans s' hp.symm, rfl, rfl⟩

/-! ### Steps and the invariant of PANF -/

/-- Everything a step that goes on can be: nothing to do, a reset, or an operation performed and its
response delivered. -/
theorem step_next_cases {s t : State} (h : step s = .next t) :
    (s.host = [] ∧ t = s) ∨
    (∃ rest, s.host = .reset :: rest ∧ t = { s with host := rest, panf := State.reset.panf }) ∨
    (∃ c q rest i f r, s.host = .request c q :: rest ∧ decodeRequest q = .ok i ∧
      exec i { s with host := rest } = .next (({ s with host := rest }.writePanf f).present r) ∧
      t = { s with panf := f, rsp := none, host := rest, delivered := s.delivered ++ [(c, r)] }) := by
  rcases hh : s.host with - | ⟨⟨c, q⟩ | -, rest⟩
  case nil =>
    cases (step_idle hh).symm.trans h
    exact .inl ⟨rfl, rfl⟩
  case cons.request =>
    rcases step_request_cases hh with e | e | ⟨i, f, r, hd, hexec, e⟩ <;> cases e.symm.trans h
    exact .inr (.inr ⟨c, q, rest, i, f, r, rfl, hd, hexec, rfl⟩)
  case cons.reset =>
    cases (step_reset hh).symm.trans h
    exact .inr (.inl ⟨rest, rfl, rfl⟩)

/-- `Z0`..`Z3` are the first four nibbles (R22). -/
theorem panfOk_iff (f : Field16) : PanfOk f ↔ f[0] = 0 ∧ f[1] = 0 ∧ f[2] = 0 ∧ f[3] = 0 := by
  simp [PanfOk, Fin.forall_fin_succ, fieldZ, List.getD_eq_getElem?_getD]

theorem reset_inv : State.reset.Inv := by decide

/-- R21: an operation keeps the invariant: what SETPAN writes is a PAN field. -/
theorem exec_inv {i : Instr} {s t : State} (hs : s.Inv) (h : exec i s = .next t) : t.Inv := by
  rcases exec_next_cases h with ⟨r, rfl⟩ | ⟨pan, f, -, hf, rfl⟩
  · exact hs
  · exact panField_zeros hf

/-- R21: a step keeps the invariant. -/
theorem step_inv {s t : State} (hs : s.Inv) (h : step s = .next t) : t.Inv := by
  rcases step_next_cases h with ⟨-, rfl⟩ | ⟨rest, -, rfl⟩ | ⟨c, q, rest, i, f, r, -, -, hexec, rfl⟩
  · exact hs
  · exact reset_inv
  · exact (exec_inv (s := { s with host := rest }) hs hexec :)

/-- Settles O14: reset meets the invariant, operations and steps keep it. -/
theorem stepsKeepThePanfInvariant : Obligations.StepsKeepThePanfInvariant :=
  ⟨reset_inv, fun _ _ _ => exec_inv,
    fun _ t hs h => ⟨t.panf.length_toList, (panfOk_iff t.panf).mp (step_inv hs h)⟩⟩

/-- Settles O15: idle and reset leave the port alone, and a transaction ends with the delivery. -/
theorem stepsLeaveThePortEmpty : Obligations.StepsLeaveThePortEmpty := by
  intro s t hs h
  rcases step_next_cases h with ⟨-, rfl⟩ | ⟨rest, -, rfl⟩ | ⟨c, q, rest, i, f, r, -, -, -, rfl⟩
  · exact hs
  · exact hs
  · rfl

/-! ### Reset -/

/-- Settles O10: the step of a reset event. -/
theorem resetEventRestoresTheDefaultPanField : Obligations.ResetEventRestoresTheDefaultPanField :=
  fun _ _ => step_reset

/-- Settles O12, by running the extractor on the default PAN. -/
theorem resetHoldsTheDefaultPanField : Obligations.ResetHoldsTheDefaultPanField := by
  unfold Obligations.ResetHoldsTheDefaultPanField
  decide

/-- Settles O13. -/
theorem resetMeetsThePanfInvariant : Obligations.ResetMeetsThePanfInvariant := ⟨reset_inv, rfl⟩

/-! ### The 64-bit image of a field -/

/-- The number whose base-16 digits are the nibbles, the first the most significant; `fieldImage` holds
it in 64 bits. -/
def nibblesNumber (v : List Nib) : Nat := v.foldl (fun acc d => 16 * acc + d.toNat) 0

theorem nibblesNumber_concat (v : List Nib) (d : Nib) :
    nibblesNumber (v ++ [d]) = 16 * nibblesNumber v + d.toNat := by
  simp [nibblesNumber]

theorem nibblesNumber_lt (v : List Nib) : nibblesNumber v < 16 ^ v.length := by
  induction v using List.reverseRecOn with
  | nil => exact Nat.one_pos
  | append_singleton v d ih =>
    have := d.isLt
    rw [nibblesNumber_concat, List.length_append, List.length_singleton, pow_succ]
    omega

/-- Digit `i` from the front is nibble `i`. -/
theorem nibblesNumber_digit (v : List Nib) (i : Nat) (h : i < v.length) :
    nibblesNumber v / 16 ^ (v.length - 1 - i) % 16 = v[i].toNat := by
  induction v using List.reverseRecOn with
  | nil => cases h
  | append_singleton v d ih =>
    have hd := d.isLt
    rw [nibblesNumber_concat, List.length_append, List.length_singleton, Nat.add_sub_cancel]
    rcases Nat.lt_or_ge i v.length with hi | hi
    · have hexp : v.length - i = v.length - 1 - i + 1 := by omega
      have hdiv : (16 * nibblesNumber v + d.toNat) / 16 = nibblesNumber v := by omega
      rw [hexp, pow_succ', ← Nat.div_div_eq_div_mul, hdiv, ih hi, List.getElem_append_left hi]
    · obtain rfl : i = v.length := by simp at h; omega
      simp; omega

theorem toNat_fieldImage (f : Field16) : (fieldImage f).toNat = nibblesNumber f.toList := by
  have h : nibblesNumber f.toList < 16 ^ 16 := by simpa using nibblesNumber_lt f.toList
  exact (BitVec.toNat_ofNat _ _).trans (Nat.mod_eq_of_lt (Nat.lt_of_lt_of_eq h (by norm_num)))

/-- R30: nibble `i` of a field in its image. -/
theorem extractLsb'_fieldImage (f : Field16) (i : Fin 16) :
    (fieldImage f).extractLsb' (60 - 4 * i.val) 4 = f[i] := by
  have hdigit := nibblesNumber_digit f.toList i.val (by simp)
  have hexp : 2 ^ (60 - 4 * i.val) = 16 ^ (15 - i.val) := by
    rw [show 60 - 4 * i.val = 4 * (15 - i.val) by omega, pow_mul]
    rfl
  apply BitVec.eq_of_toNat_eq
  rw [BitVec.extractLsb'_toNat, Nat.shiftRight_eq_div_pow, toNat_fieldImage, hexp]
  simpa using hdigit

/-- The byte that `PACK` makes of two nibbles is their number (R113). -/
theorem toNat_packPair : ∀ x y : Nib,
    (((zext8 x &&& 0xF) <<< 4) ||| (zext8 y &&& 0xF)).toNat = 16 * x.toNat + y.toNat := by decide

theorem hexByte_packPair (x y : Nib) :
    hexByte (((zext8 x &&& 0xF) <<< 4) ||| (zext8 y &&& 0xF)) = [hexup x, hexup y] := by
  rw [hexByte, packPair_high, packPair_low]

/-- Packing pairs of nibbles keeps the number they are the digits of. -/
theorem foldl_packPairs_nibElems : ∀ (v : List Nib) (n : Nat), v.length % 2 = 0 →
    (packPairs (nibElems v)).foldl (fun n x => 256 * n + x.toNat) n =
      v.foldl (fun acc d => 16 * acc + d.toNat) n
  | [], _, _ => rfl
  | [_], _, h => by simp at h
  | x :: y :: rest, n, h => by
    have ih := foldl_packPairs_nibElems rest (16 * (16 * n + x.toNat) + y.toNat)
      ((Nat.add_mod_right rest.length 2).symm.trans h)
    have hacc : 256 * n + (16 * x.toNat + y.toNat) = 16 * (16 * n + x.toNat) + y.toNat := by omega
    simpa only [nibElems, List.map_cons, packPairs, List.foldl_cons, toNat_packPair, hacc] using ih

/-- R46: the hex rendering of packed nibbles is the rendering of each nibble in order. -/
theorem hexRendering_packPairs_nibElems : ∀ v : List Nib, v.length % 2 = 0 →
    hexRendering (packPairs (nibElems v)) = v.map hexup
  | [], _ => rfl
  | [_], h => by simp at h
  | x :: y :: rest, h => by
    have ih := hexRendering_packPairs_nibElems rest ((Nat.add_mod_right rest.length 2).symm.trans h)
    simp only [nibElems, hexRendering] at ih
    simp only [nibElems, hexRendering, List.map_cons, packPairs, List.flatMap_cons, hexByte_packPair, ih,
      List.cons_append, List.nil_append]

/-- Settles O2: the image is the number of the nibbles, which packing keeps. -/
theorem fieldImageIsBigEndian : Obligations.FieldImageIsBigEndian := by
  refine ⟨extractLsb'_fieldImage, ?_, by decide⟩
  intro f b hb
  have heven : f.toList.length % 2 = 0 := by simp
  rw [packElems_even (by simp)] at hb
  cases hb
  exact ⟨(toNat_fieldImage f).trans (foldl_packPairs_nibElems _ 0 heven).symm,
    hexRendering_packPairs_nibElems _ heven⟩

end Sys2Proof.Machine
end


section
/-! ## PROOFS: the response of every operation -/

namespace Sys2Proof.Machine

/-! ### The form of a result -/

/-- What the result payload of an operation is made of, where it succeeds: the output elements of a
field, bytes, characters or decimal numerals (R63, R64). -/
def ResultForm : Instr → List Byte → Prop
  | .setpan _, p => p = []
  | .panprep _, p => ∃ f : Field16, p = nibElems f.toList
  | .pingen _ _, p => ∃ f : Field16, p = nibElems f.toList
  | .unpack b, p => p = nibElems (unpackBytes b)
  | .pack e, p => p = packPairs e
  | .xor16 _, p => ∃ f : Field16, p = nibElems f.toList
  | .pinext _, p => ∃ d : List Nib, d.length ≤ 12 ∧ p = nibElems d
  | .encode _ _, p => ∃ f : Field16, p = f.toList.map hexup
  | .encodeb _ _, p => ∃ f : Field16, p = packPairs (nibElems f.toList)
  | .decode _, p => ∃ d : List Nib, d.length ≤ 12 ∧ p = pinString d
  | .decodeb _, p => ∃ d : List Nib, d.length ≤ 12 ∧ p = pinString d
  | .reserved0 _, _ => False
  | .reservedCToF _ _, _ => False

/-- A response is a success with a payload that meets `P`, or the report of an error. -/
def Response.Reports (P : List Byte → Prop) (r : Response) : Prop :=
  (∃ p, P p ∧ r = okResponse p) ∨ ∃ c, r = errResponse c

/-- From `s` the outcome `o` presents a response that succeeds with a payload that meets `P`, or reports
an error, after writing at most `PANF`. -/
def Presents (P : List Byte → Prop) (s : State) (o : Outcome) : Prop :=
  ∃ f r, o = .next ((s.writePanf f).present r) ∧ r.Reports P

section
variable {P : List Byte → Prop} {s : State}

theorem presents_raise (c : Cause) : Presents P s (raise c s) :=
  ⟨s.panf, _, rfl, .inr ⟨c, rfl⟩⟩

theorem presents_respond {p : List Byte} (h : P p) : Presents P s (respond p s) :=
  ⟨s.panf, _, rfl, .inl ⟨p, h, rfl⟩⟩

/-- An answer presents what its units return, so its form is theirs. -/
theorem presents_answer {res : Except Cause (List Byte)} (h : ∀ p, res = .ok p → P p) :
    Presents P s (answer res s) := by
  cases res with
  | ok p => exact presents_respond (h p rfl)
  | error c => exact presents_raise c

theorem presents_answer_map {α : Type} {res : Except Cause α} {g : α → List Byte}
    (h : ∀ a, res = .ok a → P (g a)) : Presents P s (answer (res.map g) s) := by
  cases res with
  | ok a => exact presents_respond (h a rfl)
  | error c => exact presents_raise c

theorem presents_answerField {res : Except Cause Field16} (h : ∀ f : Field16, P (nibElems f.toList)) :
    Presents P s (answerField res s) := by
  cases res with
  | ok f => exact presents_respond (h f)
  | error c => exact presents_raise c

end

/-- R125: at most twelve digits come out of a field. -/
theorem pinExtract_ok_length {f : Field16} {d : List Nib} (h : pinExtract f = .ok d) : d.length ≤ 12 := by
  rcases pinExtract_cases f with ⟨-, e⟩ | ⟨-, -, e⟩ | ⟨-, -, h12, e⟩ <;> cases e.symm.trans h
  exact (List.length_take_le _ _).trans h12

/-- R142: what the decode chain returns are the numerals of at most twelve digits. -/
theorem decodeField_ok_form {c : List Nib} {p : Field16} {v : List Byte} (h : decodeField c p = .ok v) :
    ∃ d : List Nib, d.length ≤ 12 ∧ v = pinString d := by
  unfold decodeField at h
  cases hx : xorField c p.toList with
  | error e => simp [hx] at h
  | ok f =>
    cases hd : pinExtract f with
    | error e => simp [hx, hd] at h
    | ok d =>
      simp only [hx, hd, Except.ok.injEq] at h
      exact ⟨d, pinExtract_ok_length hd, h.symm⟩

/-- R55, R60: every operation whose result a header can announce presents a response, and a success has
the form of its result. -/
theorem exec_presents (i : Instr) (s : State) (h : i.resultFits = true) :
    Presents (ResultForm i) s (exec i s) := by
  cases i with
  | setpan pan =>
    rcases execSetpan_cases pan s with ⟨c, -, e⟩ | ⟨f, -, e⟩
    · exact ⟨s.panf, _, e, .inr ⟨c, rfl⟩⟩
    · exact ⟨f, _, e, .inl ⟨[], rfl, rfl⟩⟩
  | panprep pan => exact presents_answerField fun f => ⟨f, rfl⟩
  | pingen pin rnd => exact presents_answerField fun f => ⟨f, rfl⟩
  | unpack b =>
    rcases execUnpack_cases b s with ⟨hb, -⟩ | ⟨-, e⟩
    · exact absurd hb (Nat.not_lt.mpr (of_decide_eq_true h))
    · exact ⟨s.panf, _, e, .inl ⟨_, rfl, rfl⟩⟩
  | pack e =>
    refine presents_answer fun p hp => ?_
    unfold packElems at hp
    split at hp <;> cases hp
    rfl
  | xor16 e =>
    simp only [exec, execXor16]
    split
    · exact presents_raise _
    · exact presents_answerField fun f => ⟨f, rfl⟩
  | pinext e =>
    simp only [exec, execPinext]
    split
    · exact presents_raise _
    · exact presents_answer_map fun d hd => ⟨d, pinExtract_ok_length hd, rfl⟩
  | encode pin rnd => exact presents_answer_map fun f _ => ⟨f, rfl⟩
  | encodeb pin rnd =>
    simp only [exec, execEncodeb]
    split
    · exact presents_raise _
    next f _ =>
      rw [packElems_even (by simp)]
      exact presents_respond ⟨f, rfl⟩
  | decode b =>
    simp only [exec, execDecode]
    split
    · exact presents_raise _
    · split
      · exact presents_raise _
      · exact presents_answer fun _ => decodeField_ok_form
  | decodeb b =>
    simp only [exec, execDecodeb]
    split
    · exact presents_raise _
    · exact presents_answer fun _ => decodeField_ok_form
  | reserved0 _ => exact presents_raise _
  | reservedCToF _ _ => exact presents_raise _

/-- The response of an operation that ends is a success with a result of its form, or an error. -/
theorem reports_of_exec_next {i : Instr} {s t : State} {r : Response} (h : exec i s = .next t)
    (hr : t.rsp = some r) : r.Reports (ResultForm i) := by
  obtain ⟨f, r', e, hform⟩ := exec_presents i s (resultFits_of_exec_next h)
  cases e.symm.trans h
  cases hr
  exact hform

/-! ### The length of a result -/

/-- The greatest number of elements in a result of the operation (R65). -/
def resultBound : Instr → Nat
  | .setpan _ => 0
  | .panprep _ => 16
  | .pingen _ _ => 16
  | .unpack b => 2 * b.length
  | .pack e => e.length / 2
  | .xor16 _ => 16
  | .pinext _ => 12
  | .encode _ _ => 16
  | .encodeb _ _ => 8
  | .decode _ => 24
  | .decodeb _ => 24
  | .reserved0 _ => 0
  | .reservedCToF _ _ => 0

/-- R75, R128: a digit is rendered with one or two characters. -/
theorem pinString_length_le (d : List Nib) : (pinString d).length ≤ 2 * d.length := by
  induction d with
  | nil => exact Nat.zero_le _
  | cons v d ih =>
    have hv : (decstr v).length ≤ 2 := by rw [decstr_length]; split <;> omega
    simp only [pinString, List.flatMap_cons, List.length_append, List.length_cons] at *
    omega

theorem ResultForm.length_le {i : Instr} {p : List Byte} (h : ResultForm i p) :
    p.length ≤ resultBound i := by
  cases i with
  | setpan _ => cases h; exact Nat.le_refl 0
  | panprep _ | pingen _ _ | xor16 _ => obtain ⟨f, rfl⟩ := h; simp [resultBound]
  | unpack b => cases h; simp [resultBound]
  | pack e => cases h; simp [resultBound]
  | pinext _ => obtain ⟨d, hd, rfl⟩ := h; simpa [resultBound] using hd
  | encode _ _ => obtain ⟨f, rfl⟩ := h; simp [resultBound]
  | encodeb _ _ => obtain ⟨f, rfl⟩ := h; simp [resultBound]
  | decode _ | decodeb _ =>
    obtain ⟨d, hd, rfl⟩ := h
    exact (pinString_length_le d).trans (Nat.mul_le_mul_left 2 hd)
  | reserved0 _ | reservedCToF _ _ => exact h.elim

/-- A result has at most 24 elements, or twice as many as the payload. -/
theorem resultBound_le (i : Instr) : resultBound i ≤ max 24 (2 * i.payload.length) := by
  cases i <;> simp only [resultBound, Instr.payload] <;> omega

theorem wf_iff (i : Instr) :
    i.wf = true ↔ i.payload.length ≤ Config.maxLen ∧ i.resultFits = true := by
  simp [Instr.wf, Instr.lengthFits]

/-- R62: a result of a well-formed request has a length that `olen` can say. -/
theorem resultBound_le_maxLen {i : Instr} (h : i.wf = true) : resultBound i ≤ Config.maxLen := by
  obtain ⟨hlen, hres⟩ := (wf_iff i).mp h
  cases i with
  | unpack b => exact of_decide_eq_true hres
  | pack e => exact (Nat.div_le_self _ _).trans hlen
  | _ => simp [resultBound, Config.maxLen]

/-- R76: a request that a core can be presented with has a result that a header can announce. -/
theorem resultFits_of_length_le {cap : Nat} {i : Instr} (hcap : Config.CapIn cap)
    (h : i.payload.length ≤ cap) : i.resultFits = true := by
  cases i with
  | unpack b =>
    obtain ⟨-, hmax⟩ := hcap
    simp only [Instr.payload] at h
    simp only [Instr.resultFits, Config.maxLen, decide_eq_true_eq]
    omega
  | _ => rfl

/-! ### The header of a response -/

/-- R155: the number of an error class is 1 to 5. -/
theorem status_mem_range (k : ErrClass) : 1 ≤ k.status.toNat ∧ k.status.toNat ≤ 5 := by
  cases k <;> decide

/-- R156: the number of a cause is 1 to 12. -/
theorem number_mem_range (c : Cause) : 1 ≤ c.number.toNat ∧ c.number.toNat ≤ 12 := by
  cases c <;> decide

/-- Settles O34: the response is a success whose length `olen` can say, or an error. -/
theorem everyOperationAnswersOnce : Obligations.EveryOperationAnswersOnce := by
  intro i s hwf
  obtain ⟨-, hfits⟩ := (wf_iff i).mp hwf
  obtain ⟨f, r, e, ⟨p, hp, rfl⟩ | ⟨c, rfl⟩⟩ := exec_presents i s hfits
  · refine ⟨_, _, e, rfl, rfl, rfl, .inl ⟨status_okResponse p, olen_okResponse ?_⟩⟩
    exact hp.length_le.trans (resultBound_le_maxLen hwf)
  · obtain ⟨hs1, hs5⟩ := status_mem_range c.cls
    obtain ⟨hc1, hc12⟩ := number_mem_range c
    rw [← status_errResponse] at hs1 hs5
    rw [← cause_errResponse] at hc1 hc12
    exact ⟨_, _, e, rfl, rfl, rfl, .inr ⟨hs1, hs5, middle_errResponse c, hc1, hc12, rfl⟩⟩

/-- Settles O42: 24 elements fit a core of capacity 17, and a longer result is at most twice the
payload. -/
theorem responsesFitTheCapacity : Obligations.ResponsesFitTheCapacity := by
  intro cap i s hcap hlen
  obtain ⟨f, r, e, hr⟩ := exec_presents i s (resultFits_of_length_le hcap hlen)
  refine ⟨_, r, e, rfl, ?_⟩
  obtain ⟨hmin, -⟩ := hcap
  rcases hr with ⟨p, hp, rfl⟩ | ⟨c, rfl⟩
  · have := hp.length_le.trans (resultBound_le i)
    rw [obuf_okResponse]
    omega
  · exact Nat.zero_le _

/-! ### Nibble-carrying elements -/

/-- A nibble-carrying element with bits 7:4 discarded (R42). -/
def maskNibble (x : Byte) : Byte := x &&& 0xF

@[simp] theorem lowNib_maskNibble : ∀ x : Byte, lowNib (maskNibble x) = lowNib x := by decide

@[simp] theorem lowNib_comp_maskNibble : lowNib ∘ maskNibble = lowNib := funext lowNib_maskNibble

theorem packPairs_map_maskNibble : ∀ e : List Byte, packPairs (e.map maskNibble) = packPairs e
  | [] => rfl
  | [_] => rfl
  | x :: y :: rest => by
    simp [packPairs, packPairs_map_maskNibble rest, maskNibble, BitVec.and_assoc]

/-- The operations of format N look at the low halves of their elements only. -/
theorem exec_map_maskNibble (e : List Byte) (s : State) :
    exec (.pack (e.map maskNibble)) s = exec (.pack e) s ∧
    exec (.xor16 (e.map maskNibble)) s = exec (.xor16 e) s ∧
    exec (.pinext (e.map maskNibble)) s = exec (.pinext e) s := by
  refine ⟨?_, ?_, ?_⟩
  · simp only [exec, execPack, packElems, List.length_map, packPairs_map_maskNibble]
  · simp only [exec, execXor16, List.length_map, ← List.map_take, ← List.map_drop, List.map_map,
      lowNib_comp_maskNibble]
  · simp only [exec, execPinext, List.length_map, List.map_map, lowNib_comp_maskNibble]

/-- A result of nibbles is made of output elements. -/
theorem ResultForm.exists_nibElems {i : Instr} {p : List Byte} (h : ResultForm i p)
    (hk : i.resultKind = .nibbles) : ∃ v, p = nibElems v := by
  cases i with
  | panprep _ | pingen _ _ | xor16 _ => obtain ⟨f, rfl⟩ := h; exact ⟨_, rfl⟩
  | unpack b => exact ⟨_, h⟩
  | pinext _ => obtain ⟨d, -, rfl⟩ := h; exact ⟨d, rfl⟩
  | _ => cases hk

theorem zext8_high : ∀ v : Nib, zext8 v >>> 4 = 0 := by decide

/-- Settles O36: each operation is the same on the masked payload, and a result of nibbles is made of
zero-extended ones. -/
theorem nibbleElementsAreMasked : Obligations.NibbleElementsAreMasked := by
  refine ⟨?_, ?_⟩
  · intro e e' s (h : e.map maskNibble = e'.map maskNibble)
    obtain ⟨hpack, hxor, hext⟩ := exec_map_maskNibble e s
    rw [h] at hpack hxor hext
    obtain ⟨hpack', hxor', hext'⟩ := exec_map_maskNibble e' s
    exact ⟨hpack.symm.trans hpack', hxor.symm.trans hxor', hext.symm.trans hext'⟩
  · intro i s t r hk h hr x hx
    rcases reports_of_exec_next h hr with ⟨p, hp, rfl⟩ | ⟨c, rfl⟩
    · obtain ⟨v, rfl⟩ := hp.exists_nibElems hk
      obtain ⟨n, -, rfl⟩ := List.mem_map.mp hx
      exact zext8_high n
    · cases hx

end Sys2Proof.Machine
end

section
/-! ## PROOFS: runs over the events of a possible host -/

namespace Sys2Proof.Machine

/-! ### Runs of a machine -/

theorem run_succ {s t : State} (k : Nat) (h : step s = .next t) :
    Sys2Proof.core.run (k + 1) s = Sys2Proof.core.run k t := by
  have hcore : Sys2Proof.core.step s = .next t := h
  simp only [Host.Core.run, hcore]

theorem run_succ_of_refused {s : State} {r : Refusal} (k : Nat) (h : step s = .refused r) :
    Sys2Proof.core.run (k + 1) s = .refused r := by
  have hcore : Sys2Proof.core.step s = .refused r := h
  simp only [Host.Core.run, hcore]

/-- The last step of a run is a step from where the run without it ends. -/
theorem run_succ_of_run {k : Nat} {s t : State} (h : Sys2Proof.core.run k s = .next t) :
    Sys2Proof.core.run (k + 1) s = step t := by
  induction k generalizing s with
  | zero =>
    cases h
    cases ht : step t with
    | next u => exact run_succ 0 ht
    | fault r => exact nomatch r
    | refused r => exact run_succ_of_refused 0 ht
  | succ k ih =>
    cases hs : step s with
    | next u =>
      rw [run_succ _ hs] at h ⊢
      exact ih h
    | fault r => exact nomatch r
    | refused r => cases (run_succ_of_refused k hs).symm.trans h

/-! ### What the events of the host do to `PANF` -/

theorem panfAfter_cons (p : Field16) (e : HostEvent) (rest : List HostEvent) :
    panfAfter p (e :: rest) = panfAfter (panfAfter p [e]) rest := by
  cases e with
  | reset => rfl
  | request c q =>
    simp only [panfAfter]
    split
    · split <;> rfl
    · rfl

theorem panfAfter_of_ne_setpan {p : Field16} {c : Nat} {q : Request} {i : Instr}
    (hd : decodeRequest q = .ok i) (hi : ∀ pan, i ≠ .setpan pan) :
    panfAfter p [.request c q] = p := by
  cases i with
  | setpan pan => exact absurd rfl (hi pan)
  | _ => simp only [panfAfter, hd]

/-- R50: the operation of a request leaves `PANF` as `panfAfter` says. -/
theorem panf_of_exec_next {i : Instr} {s t : State} {c : Nat} {q : Request}
    (hd : decodeRequest q = .ok i) (h : exec i s = .next t) :
    t.panf = panfAfter s.panf [.request c q] := by
  by_cases hi : ∃ pan, i = .setpan pan
  · obtain ⟨pan, rfl⟩ := hi
    rcases execSetpan_cases pan s with ⟨c, hp, e⟩ | ⟨f, hp, e⟩ <;> cases e.symm.trans h <;>
      simp [panfAfter, hd, hp]
  · have hne : ∀ pan, i ≠ .setpan pan := fun pan hpan => hi ⟨pan, hpan⟩
    rw [panfAfter_of_ne_setpan hd hne, onlySetpanWritesPanf i s t hne h]

/-! ### Serving the events of a possible host -/

/-- A possible request decodes, to an operation on a payload that the core can hold. -/
theorem exists_decode_of_possible {cap c : Nat} {q : Request}
    (h : (HostEvent.request c q).possible cap = true) :
    ∃ i, decodeRequest q = .ok i ∧ i.payload.length ≤ cap := by
  cases hd : decodeRequest q with
  | error e => simp [HostEvent.possible, hd] at h
  | ok i => exact ⟨i, rfl, by simpa [HostEvent.possible, hd, Instr.presentable] using h⟩

/-- The step of a possible request delivers to the caller the response that its operation gives under the
same `PANF`, and takes the request from the events. -/
theorem step_possible_request {cap c : Nat} {q : Request} {i : Instr} {s : State}
    {rest : List HostEvent} (hcap : Config.CapIn cap) (h : s.host = .request c q :: rest)
    (hd : decodeRequest q = .ok i) (hlen : i.payload.length ≤ cap) :
    ∃ t r, step s = .next t ∧ t.host = rest ∧ t.panf = panfAfter s.panf [.request c q] ∧
      t.delivered = s.delivered ++ [(c, r)] ∧
      ∀ s' : State, s'.panf = s.panf → responseOf i s' = some r := by
  obtain ⟨f, r, hans⟩ := exec_answersAt i s.panf (resultFits_of_length_le hcap hlen)
  have hexec := hans { s with host := rest } rfl
  refine ⟨{ s with panf := f, rsp := none, host := rest, delivered := s.delivered ++ [(c, r)] }, r,
    ?_, rfl, (panf_of_exec_next hd hexec :), rfl, ?_⟩
  · rw [step_decoded h hd, hexec]
    rfl
  · intro s' hp
    rw [responseOf, hans s' hp]
    rfl

/-- The core has gone from `s` to `t` through `events`, answering each request to its caller. -/
structure Serves (events : List HostEvent) (s t : State) : Prop where
  host : s.host = events ++ t.host
  panf : t.panf = panfAfter s.panf events
  delivered : ∃ ds, t.delivered = s.delivered ++ ds ∧
    ds.map Prod.fst = events.filterMap HostEvent.caller?

theorem Serves.nil (s : State) : Serves [] s s := ⟨rfl, rfl, [], by simp, rfl⟩

theorem Serves.cons {e : HostEvent} {events : List HostEvent} {s u t : State} (he : Serves [e] s u)
    (h : Serves events u t) : Serves (e :: events) s t := by
  obtain ⟨ds, hds, hcaller⟩ := he.delivered
  obtain ⟨ds', hds', hcallers⟩ := h.delivered
  refine ⟨?_, ?_, ds ++ ds', ?_, ?_⟩
  · rw [he.host, h.host]
    rfl
  · rw [h.panf, he.panf, ← panfAfter_cons]
  · rw [hds', hds, List.append_assoc]
  · rw [List.map_append, hcaller, hcallers, ← List.filterMap_append]
    rfl

/-- The step of a possible event serves it. -/
theorem step_serves {cap : Nat} {e : HostEvent} {rest : List HostEvent} {s : State}
    (hcap : Config.CapIn cap) (h : s.host = e :: rest) (he : e.possible cap = true) :
    ∃ t, step s = .next t ∧ t.host = rest ∧ Serves [e] s t := by
  cases e with
  | reset => exact ⟨_, step_reset h, rfl, h, rfl, [], by simp, rfl⟩
  | request c q =>
    obtain ⟨i, hd, hlen⟩ := exists_decode_of_possible he
    obtain ⟨t, r, hstep, hhost, hpanf, hdel, -⟩ := step_possible_request hcap h hd hlen
    exact ⟨t, hstep, hhost, h.trans (by rw [hhost]; rfl), hpanf, [(c, r)], hdel, rfl⟩

/-- A run over the next events of a possible host serves them. -/
theorem run_serves {cap : Nat} (hcap : Config.CapIn cap) {events rest : List HostEvent} {s : State}
    (h : s.host = events ++ rest) (he : ∀ e ∈ events, e.possible cap = true) :
    ∃ t, Sys2Proof.core.run events.length s = .next t ∧ t.host = rest ∧ Serves events s t := by
  induction events generalizing s with
  | nil => exact ⟨s, rfl, h, .nil s⟩
  | cons e events ih =>
    obtain ⟨hpos, hall⟩ := List.forall_mem_cons.mp he
    obtain ⟨u, hstep, hu, hserve⟩ := step_serves hcap h hpos
    obtain ⟨t, hrun, ht, hserves⟩ := ih hu hall
    exact ⟨t, (run_succ _ hstep).trans hrun, ht, hserve.cons hserves⟩

/-- A step of a possible host goes on to a possible host: it serves the next event or is idle. -/
theorem step_safeHost {cap : Nat} {s : State} (hcap : Config.CapIn cap) (hs : s.SafeHost cap) :
    ∃ t, step s = .next t ∧ t.SafeHost cap := by
  cases hh : s.host with
  | nil => exact ⟨s, step_idle hh, hs⟩
  | cons e rest =>
    rw [State.SafeHost, hh, List.forall_mem_cons] at hs
    obtain ⟨hpos, hall⟩ := hs
    obtain ⟨t, hstep, rfl, -⟩ := step_serves hcap hh hpos
    exact ⟨t, hstep, hall⟩

/-- Settles O55, by induction on the number of steps. -/
theorem possibleHostsNeverStopTheCore : Obligations.PossibleHostsNeverStopTheCore := by
  intro cap s k hcap hs
  induction k generalizing s with
  | zero => exact ⟨s, rfl⟩
  | succ k ih =>
    obtain ⟨t, hstep, ht⟩ := step_safeHost hcap hs
    rw [SafeRun, run_succ k hstep]
    exact ih t ht

/-- Settles O56: the run over all events serves them all. -/
theorem everyRequestIsAnsweredToItsCaller : Obligations.EveryRequestIsAnsweredToItsCaller := by
  intro cap s hcap hs
  obtain ⟨t, hrun, ht, hserves⟩ := run_serves hcap (List.append_nil s.host).symm hs
  obtain ⟨ds, hds, hcallers⟩ := hserves.delivered
  exact ⟨t, ds, hrun, ht, hds, hcallers⟩

/-- Settles O57: the run serves the events before the request, and the next step is the request's. -/
theorem operationsSeeTheLatestPanField : Obligations.OperationsSeeTheLatestPanField := by
  intro cap s pre post c q i hcap hs hhost hd
  rw [State.SafeHost, hhost, List.forall_mem_append, List.forall_mem_cons] at hs
  obtain ⟨hpre, hreq, -⟩ := hs
  obtain ⟨t, hrun, ht, hserves⟩ := run_serves hcap hhost hpre
  obtain ⟨j, hj, hlen⟩ := exists_decode_of_possible hreq
  cases hj.symm.trans hd
  obtain ⟨u, r, hstep, -, -, hdel, hresp⟩ := step_possible_request hcap ht hd hlen
  exact ⟨t, u, r, hrun, hserves.panf, (run_succ_of_run hrun).trans hstep, hdel,
    hresp _ hserves.panf.symm⟩

end Sys2Proof.Machine
end

section
/-! ## PROOFS: the encoding of requests -/

namespace Sys2Proof

/-! ### The randomness port -/

@[simp] theorem drawsOfPort_getElem (rnd : BitVec 40) (j : Fin 10) :
    (drawsOfPort rnd)[j] = rnd.extractLsb' (36 - 4 * j.val) 4 := by
  simp [drawsOfPort]

/-- The ten draws cover the port: bit `k` of it is bit `k % 4` of draw `9 - k / 4`. -/
theorem drawsOfPort_injective : Function.Injective drawsOfPort := by
  intro x y h
  ext k hk
  have hdraw : x.extractLsb' (36 - 4 * (9 - k / 4)) 4 = y.extractLsb' (36 - 4 * (9 - k / 4)) 4 := by
    simpa only [drawsOfPort_getElem] using congrArg (fun r : Draws => r[(⟨9 - k / 4, by omega⟩ : Fin 10)]) h
  have hpos : 36 - 4 * (9 - k / 4) + k % 4 = k := by omega
  have hbit := congrArg (fun d : Nib => d.getLsbD (k % 4)) hdraw
  simpa [Nat.mod_lt, hpos, BitVec.getLsbD_eq_getElem hk] using hbit

@[simp] theorem portOfDraws_drawsOfPort (rnd : BitVec 40) : portOfDraws (drawsOfPort rnd) = rnd :=
  drawsOfPort_injective (drawsOfPort_portOfDraws _)

/-! ### The verdict on an operation code -/

/-- R77: the codes 0xC to 0xF, with their low bits. -/
theorem decodeOp_reservedCToF {op : BitVec 4} (p : List Byte) (r : Draws) (h : 0xC ≤ op.toNat) :
    decodeOp op p r = .reservedCToF (op.extractLsb' 0 2) p := by
  unfold decodeOp
  split
  case h_13 => rfl
  all_goals omega

/-- The code of an instruction, with its payload and its draws if it has any, says which one it is. -/
theorem decodeOp_opcode_payload (i : Instr) {r : Draws} (h : ∀ r' ∈ i.draws, r' = r) :
    decodeOp i.opcode i.payload r = i := by
  cases i with
  | pingen _ r' | encode _ r' | encodeb _ r' => cases h r' rfl; rfl
  | reservedCToF low p =>
    have hcode : ∀ low : BitVec 2, 0xC ≤ (0b11#2 ++ low).toNat ∧ (0b11#2 ++ low).extractLsb' 0 2 = low := by
      decide
    obtain ⟨hge, hlow⟩ := hcode low
    exact (decodeOp_reservedCToF p r hge).trans (congrArg (Instr.reservedCToF · p) hlow)
  | _ => rfl

/-- Only the operations of format CR have draws (R64, R66). -/
theorem exists_draws_iff (i : Instr) : (∃ r, i.draws = some r) ↔ i.format = .cr := by
  cases i <;> simp [Instr.draws, Instr.format]

/-! ### Requests -/

theorem decodeRequest_of_length {q : Request} (h : q.ibuf.length = headerIlen q.header) :
    decodeRequest q = .ok (decodeOp (headerOp q.header) q.ibuf (drawsOfPort q.rnd)) := if_pos h

theorem decodeRequest_of_length_ne {q : Request} (h : q.ibuf.length ≠ headerIlen q.header) :
    decodeRequest q = .error .payloadLength := if_neg h

/-- What the decoder accepts is a request with the payload its header announces. -/
theorem decodeRequest_ok_iff {q : Request} {i : Instr} : decodeRequest q = .ok i ↔
    q.ibuf.length = headerIlen q.header ∧
      i = decodeOp (headerOp q.header) q.ibuf (drawsOfPort q.rnd) := by
  by_cases h : q.ibuf.length = headerIlen q.header
  · rw [decodeRequest_of_length h, Except.ok.injEq, and_iff_right h, eq_comm]
  · simp [decodeRequest_of_length_ne h, h]

theorem encodeRequest_rnd {i : Instr} {r : Draws} (h : i.draws = some r) :
    (encodeRequest i).rnd = portOfDraws r := by
  simp [encodeRequest, h]

/-- R61: a request whose payload a header can announce decodes to its instruction, even an UNPACK whose
result no header can announce. -/
theorem decodeRequest_encodeRequest {i : Instr} (h : i.payload.length ≤ Config.maxLen) :
    decodeRequest (encodeRequest i) = .ok i := by
  have hop : headerOp (encodeRequest i).header = i.opcode := headerOp_mkHeader _ _
  refine decodeRequest_ok_iff.mpr ⟨(headerIlen_mkHeader _ h).symm, ?_⟩
  rw [hop]
  refine (decodeOp_opcode_payload i fun r hr => ?_).symm
  rw [encodeRequest_rnd hr, drawsOfPort_portOfDraws]

/-- Settles O3: the payload of a well-formed instruction has a length that `ilen` can say. -/
theorem decodingUndoesEncoding : Obligations.DecodingUndoesEncoding := by
  intro i hwf
  obtain ⟨hlen, -⟩ := (Machine.wf_iff i).mp hwf
  exact decodeRequest_encodeRequest hlen

/-- Settles O4: the verdict on a code has that code, payload and draws, and a header is its two fields. -/
theorem encodingUndoesDecoding : Obligations.EncodingUndoesDecoding := by
  intro q i hd
  obtain ⟨hlen, rfl⟩ := decodeRequest_ok_iff.mp hd
  refine ⟨?_, decodeOp_payload _ _ _, fun hcr => ?_⟩
  · rw [encodeRequest, decodeOp_opcode, decodeOp_payload, hlen, mkHeader_fields]
  · obtain ⟨r, hr⟩ := (exists_draws_iff _).mpr hcr
    rw [encodeRequest_rnd hr, decodeOp_draws _ _ _ hr, portOfDraws_drawsOfPort]

/-- The two low bits of a code are bits 13:12 of the header. -/
theorem headerOp_low (h : Header) : (headerOp h).extractLsb' 0 2 = h.extractLsb' 12 2 := by
  ext k hk
  simp [headerOp, show k < 4 by omega]

/-- Settles O5: each of the sixteen codes has the verdict of `decodeOp`. -/
theorem everyHeaderHasItsVerdict : Obligations.EveryHeaderHasItsVerdict := by
  intro h p rnd
  refine ⟨fun hlen => ⟨decodeOp (headerOp h) p (drawsOfPort rnd),
    decodeRequest_of_length (q := ⟨h, p, rnd⟩) hlen, decodeOp_payload _ _ _, ?_⟩,
    decodeRequest_of_length_ne (q := ⟨h, p, rnd⟩)⟩
  have hop : h.extractLsb' 12 4 = headerOp h := rfl
  rw [hop, ← headerOp_low h]
  exact ⟨(· ▸ rfl), (· ▸ rfl), (· ▸ rfl), (· ▸ ⟨_, rfl⟩), (· ▸ rfl), (· ▸ rfl), (· ▸ rfl), (· ▸ rfl),
    (· ▸ ⟨_, rfl⟩), (· ▸ ⟨_, rfl⟩), (· ▸ rfl), (· ▸ rfl), decodeOp_reservedCToF _ _⟩

/-- Settles O6: the draws of a decoded request are those on its port. -/
theorem drawsComeFromThePortInOrder : Obligations.DrawsComeFromThePortInOrder := by
  intro q i r hd hr j
  obtain ⟨-, rfl⟩ := decodeRequest_ok_iff.mp hd
  rw [decodeOp_draws _ _ _ hr, drawsOfPort_getElem]

/-- Settles O7, by running the decoder. -/
theorem wordsOfTheSpecDecode : Obligations.WordsOfTheSpecDecode := by
  unfold Obligations.WordsOfTheSpecDecode
  decide

end Sys2Proof
end

section
/-! ## PROOFS: what requests present, and what operations read -/

namespace Sys2Proof.Machine

/-! ### Hex digits -/

/-- Settles O1: all bytes and all nibbles are tried. -/
theorem hexDigitsHaveTheirValues : Obligations.HexDigitsHaveTheirValues :=
  ⟨by decide, by decide, by decide, by decide, by decide, hexval_hexup, by decide, by decide⟩

/-! ### Requests from the host -/

/-- The bits of a row of the opcode table are a request, whatever they are. -/
theorem exists_decode_requestOfBits (nbits w : Nat) :
    ∃ i, decodeRequest (requestOfBits nbits w) = .ok i :=
  ⟨_, decodeRequest_of_length (requestOfBits_length nbits w)⟩

theorem decodeTableWord_of_decode {nbits w : Nat} {i : Instr}
    (h : decodeRequest (requestOfBits nbits w) = .ok i) : decodeTableWord nbits w = some i := by
  simp [decodeTableWord, h]

/-- Settles O11: the prepared request is the next event, and without it the state is the one it was
prepared from. -/
theorem fetchWordIsPerformedFirst : Obligations.FetchWordIsPerformedFirst := by
  intro s nbits w
  obtain ⟨i, hd⟩ := exists_decode_requestOfBits nbits w
  exact ⟨i, decodeTableWord_of_decode hd, step_decoded (presentNext_host s _) hd⟩

/-- R82: an entry point that presents the encoded request of an operation presents one that decodes to
it. -/
theorem presents_decodable {c : Nat} {e : EntryPoint} {i : Instr}
    (he : hostEvents c e = [.request c (encodeRequest i)]) (hlen : i.payload.length ≤ Config.maxLen) :
    ∃ q, hostEvents c e = [.request c q] ∧ decodeRequest q = .ok i :=
  ⟨_, he, decodeRequest_encodeRequest hlen⟩

/-- Settles O58: each row of R82 encodes its operation. -/
theorem entryPointsPresentTheirOperation : Obligations.EntryPointsPresentTheirOperation := by
  refine ⟨fun _ => ⟨rfl, rfl⟩, fun c p rnd hlen => ?_⟩
  simp only [List.forall_mem_cons]
  exact ⟨presents_decodable rfl hlen, presents_decodable rfl hlen, presents_decodable rfl hlen,
    presents_decodable rfl hlen, presents_decodable rfl hlen, presents_decodable rfl hlen, by simp⟩

/-! ### Reserved operation codes -/

/-- R77: status 5, cause 12, no payload. -/
theorem errResponse_illegalOp : errResponse .illegalOp = ⟨0x500C, []⟩ := by decide

theorem raise_illegalOp (s : State) :
    raise .illegalOp s = .next { s with rsp := some ⟨0x500C, []⟩ } := by
  rw [raise, errResponse_illegalOp, State.present]

/-- Settles O27: a reserved code decodes to one of the two reserved constructors. -/
theorem reservedCodesRaiseIllegalOp : Obligations.ReservedCodesRaiseIllegalOp := by
  refine ⟨fun h p rnd s hlen hop => ?_, fun p low s => ⟨raise_illegalOp s, raise_illegalOp s⟩⟩
  refine ⟨decodeOp (headerOp h) p (drawsOfPort rnd), decodeRequest_of_length (q := ⟨h, p, rnd⟩) hlen, ?_⟩
  rcases hop with (hop : headerOp h = 0) | (hop : 0xC ≤ (headerOp h).toNat)
  · rw [hop]
    exact raise_illegalOp s
  · rw [decodeOp_reservedCToF _ _ hop]
    exact raise_illegalOp s

/-! ### The PAN field that operations do not read -/

/-- `op` presents one and the same response in every state, and does nothing else. -/
def PresentsAlways (op : State → Outcome) : Prop := ∃ r, ∀ s, op s = .next (s.present r)

theorem presentsAlways_raise (c : Cause) : PresentsAlways (raise c) := ⟨_, fun _ => rfl⟩

theorem presentsAlways_answer (res : Except Cause (List Byte)) : PresentsAlways (answer res) := by
  cases res <;> exact ⟨_, fun _ => rfl⟩

theorem presentsAlways_answerField (res : Except Cause Field16) : PresentsAlways (answerField res) := by
  cases res <;> exact ⟨_, fun _ => rfl⟩

/-- A check of the operands alone chooses between two operations. -/
theorem PresentsAlways.ite {c : Prop} [Decidable c] {a b : State → Outcome} (ha : PresentsAlways a)
    (hb : PresentsAlways b) : PresentsAlways fun s => if c then a s else b s := by
  split
  · exact ha
  · exact hb

/-- R188: an operation that neither reads nor writes `PANF` presents the same response in every state. -/
theorem exec_presentsAlways {i : Instr} (hfits : i.resultFits = true) (hread : readsPanf i = false)
    (hwrite : writesPanf i = false) : PresentsAlways (exec i) := by
  cases i with
  | setpan _ => cases hwrite
  | encode _ _ | encodeb _ _ | decode _ | decodeb _ => cases hread
  | panprep pan => exact presentsAlways_answerField _
  | pingen pin rnd => exact presentsAlways_answerField _
  | unpack b => exact ⟨_, fun s => if_neg (Nat.not_lt.mpr (of_decide_eq_true hfits))⟩
  | pack e => exact presentsAlways_answer _
  | xor16 e => exact (presentsAlways_raise _).ite (presentsAlways_answerField _)
  | pinext e => exact (presentsAlways_raise _).ite (presentsAlways_answer _)
  | reserved0 _ | reservedCToF _ _ => exact presentsAlways_raise _

theorem execSetpan_of_error {pan : List Byte} {c : Cause} (h : panField pan = .error c) (s : State) :
    execSetpan pan s = .next (s.present (errResponse c)) := by
  simp only [execSetpan, h, raise]

theorem execSetpan_of_ok {pan : List Byte} {f : Field16} (h : panField pan = .ok f) (s : State) :
    execSetpan pan s = .next ((s.writePanf f).present (okResponse [])) := by
  simp only [execSetpan, h, respond]

/-- Settles O39: SETPAN derives its field from the string alone, and the other operations present the
same response in every state. -/
theorem unitOperationsIgnorePanf : Obligations.UnitOperationsIgnorePanf := by
  intro i s t p hread h
  cases hwrite : writesPanf i
  case false =>
    obtain ⟨r, hr⟩ := exec_presentsAlways (resultFits_of_exec_next h) hread hwrite
    cases (hr s).symm.trans h
    exact ⟨_, hr _, rfl, .inl rfl⟩
  case true =>
    cases i <;> cases hwrite
    next pan =>
      rcases execSetpan_cases pan s with ⟨c, hf, e⟩ | ⟨f, hf, e⟩ <;> cases e.symm.trans h
      · exact ⟨_, execSetpan_of_error hf _, rfl, .inl rfl⟩
      · exact ⟨_, execSetpan_of_ok hf _, rfl, .inr rfl⟩

/-! ### The draws that operations do not use -/

/-- R98: a PIN field depends on the draws that fill it up, and an error on none. -/
theorem pinField_eq_of_take_draws {pin : List Byte} {r r' : Draws}
    (h : 4 ≤ pin.length ∧ pin.length ≤ 12 ∧ (∀ c ∈ pin, ishex c = true) →
      r.toList.take (14 - pin.length) = r'.toList.take (14 - pin.length)) :
    pinField pin r = pinField pin r' := by
  rcases pinField_cases pin r with ⟨hl, e⟩ | ⟨h4, h12, hx, e⟩ | ⟨h4, h12, hx, f, e, hf⟩
  · rw [e, pinField_length hl]
  · rw [e, pinField_char h4 h12 hx]
  · obtain ⟨f', e', hf'⟩ := pinField_ok r' h4 h12 hx
    have hnib : pinNibbles pin r = pinNibbles pin r' := by
      rw [pinNibbles, h ⟨h4, h12, (allHex_iff pin).mp hx⟩, pinNibbles]
    rw [e, e', Vector.toList_inj.mp (hf.trans (hnib.trans hf'.symm))]

/-- Settles O40: the three operations look at the draws through the PIN field. -/
theorem unusedDrawsAreIgnored : Obligations.UnusedDrawsAreIgnored := by
  intro pin r r' s h
  have hpin := pinField_eq_of_take_draws h
  have hblock : encodeField pin r s.panf = encodeField pin r' s.panf := by
    rw [encodeField, hpin, encodeField]
  refine ⟨?_, ?_, ?_⟩
  · simp only [exec, execPingen, hpin]
  · simp only [exec, execEncode, hblock]
  · simp only [exec, execEncodeb, hblock]

/-! ### The length of a successful result -/

/-- The payload of a success meets what a presented response reports. -/
theorem Presents.of_success {P : List Byte → Prop} {s t : State} {o : Outcome} {r : Response}
    (h : Presents P s o) (ho : o = .next t) (hr : t.rsp = some r) (hs : r.status = 0) : P r.obuf := by
  obtain ⟨f, r', rfl, hreports⟩ := h
  cases ho
  cases hr
  rcases hreports with ⟨p, hp, rfl⟩ | ⟨c, rfl⟩
  · exact hp
  · exact absurd ((status_errResponse c).symm.trans hs) (status_ne_zero _)

/-- R75, R128: a digit of value 10 or more is rendered with two characters, the others with one. -/
theorem pinString_length (d : List Nib) :
    (pinString d).length = d.length + d.countP (fun v => decide (10 ≤ v.toNat)) := by
  induction d with
  | nil => rfl
  | cons v d ih =>
    simp only [pinString, List.flatMap_cons, List.length_append, List.length_cons, List.countP_cons,
      decstr_length, decide_eq_true_eq] at *
    split <;> omega

theorem getElem_one_eq (f : Field16) : f[1] = f.toList.getD 1 0 := by
  simp [List.getD_eq_getElem?_getD]

/-- The length of what decoding the nibbles `c` under `PANF` returns (R65): `d` are the digits of the
clear PIN field. -/
def HasDecodedLength (c : List Nib) (panf : Field16) (p : List Byte) : Prop :=
  ∃ d : List Nib,
    d = ((xorNibbles c panf.toList).drop 2).take ((xorNibbles c panf.toList).getD 1 0).toNat ∧
    p.length = d.length + d.countP (fun v => decide (10 ≤ v.toNat)) ∧ 4 ≤ p.length ∧ p.length ≤ 24

theorem decodeField_hasDecodedLength {c : List Nib} {panf : Field16} {p : List Byte}
    (hc : c.length = 16) (h : decodeField c panf = .ok p) : HasDecodedLength c panf p := by
  obtain ⟨f, hf, ⟨-, e⟩ | ⟨-, -, e⟩ | ⟨-, h4, h12, e⟩⟩ := decodeField_cases panf hc <;>
    cases e.symm.trans h
  rw [getElem_one_eq] at h4 h12 ⊢
  have hlen : ((f.toList.drop 2).take (f.toList.getD 1 0).toNat).length = (f.toList.getD 1 0).toNat := by
    simp only [List.length_take, List.length_drop, Vector.length_toList]
    omega
  have hcount := pinString_length ((f.toList.drop 2).take (f.toList.getD 1 0).toNat)
  have hmax := pinString_length_le ((f.toList.drop 2).take (f.toList.getD 1 0).toNat)
  exact ⟨_, by rw [hf], hcount, by omega, by omega⟩

theorem exec_decode_presents (b : List Byte) (s : State) :
    Presents (HasDecodedLength (b.map hexval) s.panf) s (exec (.decode b) s) := by
  simp only [exec, execDecode]
  split
  · exact presents_raise _
  next hlen =>
    split
    · exact presents_raise _
    · exact presents_answer fun _ =>
        decodeField_hasDecodedLength ((List.length_map _).trans (not_not.mp hlen))

theorem exec_decodeb_presents (b : List Byte) (s : State) :
    Presents (HasDecodedLength (unpackBytes b) s.panf) s (exec (.decodeb b) s) := by
  simp only [exec, execDecodeb]
  split
  · exact presents_raise _
  next hlen =>
    have hunpack : (unpackBytes b).length = 16 :=
      (unpackBytes_length b).trans (congrArg (2 * ·) (not_not.mp hlen))
    exact presents_answer fun _ => decodeField_hasDecodedLength hunpack

/-- R125: as many digits come out of a field as its length nibble says. -/
theorem pinExtract_ok_length_eq {f : Field16} {d : List Nib} (h : pinExtract f = .ok d) :
    d.length = f[1].toNat ∧ 4 ≤ d.length ∧ d.length ≤ 12 := by
  rcases pinExtract_cases f with ⟨-, e⟩ | ⟨-, -, e⟩ | ⟨-, h4, h12, e⟩ <;> cases e.symm.trans h
  simp only [List.length_take, List.length_drop, Vector.length_toList]
  omega

theorem lowNib_toNat : ∀ x : Byte, (lowNib x).toNat = (x &&& 0xF).toNat := by decide

/-- The length nibble of a field of elements is the low half of element 1 (R42). -/
theorem fieldOfList_lowNib_one (e : List Byte) :
    (fieldOfList (e.map lowNib))[1].toNat = (e.getD 1 0 &&& 0xF).toNat := by
  have h0 : lowNib 0 = 0 := by decide
  rw [← lowNib_toNat, fieldOfList, Vector.getElem_ofFn, ← h0, List.getD_map]

theorem exec_pinext_presents (e : List Byte) (s : State) :
    Presents (fun p => p.length = (e.getD 1 0 &&& 0xF).toNat ∧ 4 ≤ p.length ∧ p.length ≤ 12) s
      (exec (.pinext e) s) := by
  simp only [exec, execPinext]
  split
  · exact presents_raise _
  · refine presents_answer_map fun d hd => ?_
    rw [nibElems_length, ← fieldOfList_lowNib_one]
    exact pinExtract_ok_length_eq hd

/-- Settles O35: the form of a result gives its length, for all but the results whose length depends on
digits. -/
theorem resultLengths : Obligations.ResultLengths := by
  intro i s t r h hr hs
  have hform := (exec_presents i s (resultFits_of_exec_next h)).of_success h hr hs
  cases i with
  | setpan _ => exact congrArg List.length hform
  | panprep _ | pingen _ _ | xor16 _ => obtain ⟨f, hp⟩ := hform; simp [hp]
  | unpack b => simp [show r.obuf = _ from hform]
  | pack e => simp [show r.obuf = _ from hform]
  | pinext e => exact (exec_pinext_presents e s).of_success h hr hs
  | encode _ _ | encodeb _ _ => obtain ⟨f, hp⟩ := hform; simp [hp]
  | decode b => exact (exec_decode_presents b s).of_success h hr hs
  | decodeb b => exact (exec_decodeb_presents b s).of_success h hr hs
  | reserved0 _ | reservedCToF _ _ => exact hform

end Sys2Proof.Machine
end

section
/-! ## PROOFS: the field preparers, and the errors of PAN and PIN strings -/

namespace Sys2Proof.Machine

/-! ### Endings of an operation, with the header written out -/

/-- R42, R62: an operation that answers a field lists its 16 nibbles as elements, under the header of a
success with 16 elements. -/
theorem answerField_ok (f : Field16) (s : State) :
    answerField (.ok f) s = .next { s with rsp := some ⟨0x0010, f.toList.map zext8⟩ } := by
  simp only [answerField, respond, State.present, okResponse, nibElems_length, Vector.length_toList]
  rfl

/-- R170: an operation that raises changes the response port only; `h` is the header of the cause. -/
theorem raise_of_errHeader {c : Cause} {h : Header} (hc : errHeader c = h) (s : State) :
    raise c s = .next { s with rsp := some ⟨h, []⟩ } := by
  rw [raise, errResponse, hc, State.present]

/-! ### The results of PANPREP and PINGEN -/

/-- Settles O17: the PAN field lists the nibbles of R91. -/
theorem panprepAnswersThePanField : Obligations.PanprepAnswersThePanField := by
  intro pan s hlen hhex
  obtain ⟨f, hf, hnibbles⟩ := panField_ok hlen ((allHex_iff pan).mpr hhex)
  rw [exec, execPanprep, hf, answerField_ok, hnibbles, panNibbles]

/-- Settles O18: the PIN field lists the nibbles of R97 and R98. -/
theorem pingenAnswersThePinField : Obligations.PingenAnswersThePinField := by
  intro pin rnd s h4 h12 hhex
  obtain ⟨f, hf, hnibbles⟩ := pinField_ok rnd h4 h12 ((allHex_iff pin).mpr hhex)
  rw [exec, execPingen, hf, answerField_ok, hnibbles, pinNibbles]

/-! ### The errors of PAN and PIN strings -/

/-- R92, R136: what the PAN field extractor raises, SETPAN and PANPREP raise. -/
theorem exec_of_panField_error {pan : List Byte} {c : Cause} (h : panField pan = .error c) (s : State) :
    exec (.setpan pan) s = raise c s ∧ exec (.panprep pan) s = raise c s :=
  ⟨execSetpan_of_error h s, by rw [exec, execPanprep, h, answerField]⟩

/-- R138: what the PIN field generator raises, the encode chain raises at every `PANF`. -/
theorem encodeField_of_pinField_error {pin : List Byte} {rnd : Draws} {c : Cause}
    (h : pinField pin rnd = .error c) (p : Field16) : encodeField pin rnd p = .error c := by
  rw [encodeField, h]

/-- R99, R139, R141: what the PIN field generator raises, PINGEN, ENCODE and ENCODEB raise. -/
theorem exec_of_pinField_error {pin : List Byte} {rnd : Draws} {c : Cause}
    (h : pinField pin rnd = .error c) (s : State) :
    exec (.pingen pin rnd) s = raise c s ∧ exec (.encode pin rnd) s = raise c s ∧
      exec (.encodeb pin rnd) s = raise c s := by
  have hchain := encodeField_of_pinField_error h s.panf
  refine ⟨?_, ?_, ?_⟩
  · rw [exec, execPingen, h, answerField]
  · rw [exec, execEncode, hchain, Except.map, answer]
  · rw [exec, execEncodeb, hchain]

/-- Settles O28: the extractor looks at the length first, and at the characters of a string that is long
enough. -/
theorem panErrors : Obligations.PanErrors := by
  intro pan s
  constructor
  · intro hshort
    rw [← raise_of_errHeader (c := .panShort) (by decide)]
    exact exec_of_panField_error (panField_short hshort) s
  · intro hlen hchar
    rw [← raise_of_errHeader (c := .panChar) (by decide)]
    exact exec_of_panField_error (panField_char hlen ((allHex_false_iff pan).mpr hchar)) s

/-- Settles O29: the generator looks at the length first, and at the characters of a string of a legal
length; no check looks at the draws. -/
theorem pinErrors : Obligations.PinErrors := by
  intro pin rnd s
  constructor
  · intro hlen
    rw [← raise_of_errHeader (c := .pinLen) (by decide)]
    exact exec_of_pinField_error (pinField_length hlen) s
  · intro h4 h12 hchar
    rw [← raise_of_errHeader (c := .pinChar) (by decide)]
    exact exec_of_pinField_error (pinField_char h4 h12 ((allHex_false_iff pin).mpr hchar)) s

end Sys2Proof.Machine
end

section
/-! ## PROOFS: the nibble and byte codec -/

namespace Sys2Proof.Machine

/-! ### Endings of UNPACK and PACK -/

theorem exec_unpack_of_le {b : List Byte} (h : 2 * b.length ≤ 4095) (s : State) :
    exec (.unpack b) s = .next (s.present (okResponse (nibElems (unpackBytes b)))) := by
  rcases execUnpack_cases b s with ⟨hgt, -⟩ | ⟨-, e⟩
  · exact absurd h (Nat.not_le.mpr hgt)
  · exact e

theorem exec_unpack_of_gt {b : List Byte} (h : 4095 < 2 * b.length) (s : State) :
    exec (.unpack b) s = .refused .overCapacity := by
  rcases execUnpack_cases b s with ⟨-, e⟩ | ⟨hle, -⟩
  · exact e
  · exact absurd h (Nat.not_lt.mpr hle)

theorem exec_pack_even {e : List Byte} (h : e.length % 2 = 0) (s : State) :
    exec (.pack e) s = .next (s.present (okResponse (packPairs e))) := by
  rw [exec, execPack, packElems_even h, answer_ok]

theorem exec_pack_odd {e : List Byte} (h : e.length % 2 = 1) (s : State) :
    exec (.pack e) s = raise .oddNibbles s := by
  rw [exec, execPack, packElems_odd h, answer]

/-- An operation that presents a success has its payload as result. -/
theorem resultOf_of_exec_ok {i : Instr} {s t : State} {p : List Byte}
    (h : exec i s = .next (t.present (okResponse p))) : resultOf i s = some p := by
  simp [resultOf, responseOf, h]

/-! ### What UNPACK lists -/

theorem zext8_highNib : ∀ x : Byte, zext8 (highNib x) = x >>> 4 := by decide

theorem zext8_lowNib : ∀ x : Byte, zext8 (lowNib x) = x &&& 0xF := by decide

/-- R111, R42: the elements of the unpacked nibbles, byte by byte. -/
theorem nibElems_unpackBytes (b : List Byte) :
    nibElems (unpackBytes b) = b.flatMap fun x : Byte => [x >>> 4, x &&& 0xF] := by
  simp only [nibElems, unpackBytes, List.map_flatMap, List.map_cons, List.map_nil, zext8_highNib,
    zext8_lowNib]

/-- Settles O19: below the bound the response lists the halves of every byte, above it UNPACK is
refused. -/
theorem unpackAnswersTheNibbles : Obligations.UnpackAnswersTheNibbles := by
  intro b s
  refine ⟨fun hle => ?_, fun hgt => exec_unpack_of_gt hgt s⟩
  rw [exec_unpack_of_le hle, State.present, okResponse, nibElems_length, unpackBytes_length,
    nibElems_unpackBytes, okHeader]

/-! ### What PACK lists -/

/-- R113: byte `k` is made of elements `2k` and `2k+1`. -/
theorem packPairs_getD : ∀ (e : List Byte) (k : Nat), k < (packPairs e).length →
    (packPairs e).getD k 0 = ((e.getD (2 * k) 0 &&& 0xF) <<< 4) ||| (e.getD (2 * k + 1) 0 &&& 0xF)
  | [], _, h => absurd h (Nat.not_lt_zero _)
  | [_], _, h => absurd h (Nat.not_lt_zero _)
  | _ :: _ :: _, 0, _ => rfl
  | _ :: _ :: rest, k + 1, h => packPairs_getD rest k (Nat.lt_of_succ_lt_succ h)

/-- Settles O20: pairs of elements go into bytes one by one, and an odd number raises. -/
theorem packAnswersTheBytes : Obligations.PackAnswersTheBytes := by
  intro e s
  constructor
  · intro heven
    refine ⟨packPairs e, packPairs_length e, packPairs_getD e, ?_⟩
    rw [exec_pack_even heven, State.present, okResponse, packPairs_length, okHeader]
  · intro hodd
    rw [exec_pack_odd hodd, raise_of_errHeader (h := 0x400B) (by decide)]

/-! ### PACK and UNPACK are inverse -/

/-- R115: packing the unpacked nibbles of bytes gives the bytes back. -/
theorem packPairs_nibElems_unpackBytes (b : List Byte) : packPairs (nibElems (unpackBytes b)) = b := by
  induction b with
  | nil => rfl
  | cons x b ih =>
    calc packPairs (nibElems (unpackBytes (x :: b)))
      _ = (((zext8 (highNib x) &&& 0xF) <<< 4) ||| (zext8 (lowNib x) &&& 0xF)) ::
            packPairs (nibElems (unpackBytes b)) := rfl
      _ = x :: b := by rw [packPair_split, ih]

/-- The halves of the byte packed from two elements are the low halves of the elements. -/
theorem unpackBytes_packPair (x y : Byte) :
    unpackBytes [((x &&& 0xF) <<< 4) ||| (y &&& 0xF)] = [lowNib x, lowNib y] := by
  rw [unpackBytes, List.flatMap_singleton, and_low_eq x, and_low_eq y, packPair_high, packPair_low]

/-- R115: unpacking what pairs of elements were packed into gives the low half of every element. -/
theorem unpackBytes_packPairs : ∀ e : List Byte, e.length % 2 = 0 →
    unpackBytes (packPairs e) = e.map lowNib
  | [], _ => rfl
  | [_], h => by simp at h
  | x :: y :: rest, h => by
    have ih := unpackBytes_packPairs rest ((Nat.add_mod_right rest.length 2).symm.trans h)
    calc unpackBytes (packPairs (x :: y :: rest))
      _ = unpackBytes [((x &&& 0xF) <<< 4) ||| (y &&& 0xF)] ++ unpackBytes (packPairs rest) := rfl
      _ = (x :: y :: rest).map lowNib := by rw [unpackBytes_packPair, ih]; rfl

theorem nibElems_map_lowNib (e : List Byte) : nibElems (e.map lowNib) = e.map fun x => x &&& 0xF := by
  simp only [nibElems, List.map_map, Function.comp_def, zext8_lowNib]

/-- Settles O43: the units undo each other, and the result of each is a payload that the other
accepts. -/
theorem packAndUnpackAreInverse : Obligations.PackAndUnpackAreInverse := by
  constructor
  · intro b s hle
    have heven : (nibElems (unpackBytes b)).length % 2 = 0 := by simp
    have hpack := exec_pack_even heven s
    rw [packPairs_nibElems_unpackBytes] at hpack
    exact ⟨_, resultOf_of_exec_ok (exec_unpack_of_le hle s), resultOf_of_exec_ok hpack⟩
  · intro e s hlen heven
    have hle : 2 * (packPairs e).length ≤ 4095 := by rw [packPairs_length]; omega
    have hunpack := exec_unpack_of_le hle s
    rw [unpackBytes_packPairs e heven, nibElems_map_lowNib] at hunpack
    exact ⟨_, resultOf_of_exec_ok (exec_pack_even heven s), resultOf_of_exec_ok hunpack⟩

end Sys2Proof.Machine
end

section
/-! ## PROOFS: XOR16 and PINEXT -/

namespace Sys2Proof.Machine

/-! ### Exclusive OR of nibble sequences -/

theorem xorNibbles_comm (a b : List Nib) : xorNibbles a b = xorNibbles b a :=
  List.zipWith_comm_of_comm BitVec.xor_comm

theorem xorNibbles_self (a : List Nib) : xorNibbles a a = List.replicate a.length 0 := by
  simp [xorNibbles, List.zipWith_self]

theorem xorNibbles_zeros (a : List Nib) : xorNibbles a (List.replicate a.length 0) = a := by
  induction a with
  | nil => rfl
  | cons x a ih => exact congrArg₂ List.cons BitVec.xor_zero ih

theorem take_xorNibbles (n : Nat) (a b : List Nib) :
    (xorNibbles a b).take n = xorNibbles (a.take n) (b.take n) := List.take_zipWith

/-! ### XOR16 -/

/-- R42: bits 7:4 of both elements of a lane are discarded, and are 0 in the result. -/
theorem zext8_xor_lowNib (x y : Byte) : zext8 (lowNib x ^^^ lowNib y) = (x ^^^ y) &&& 0xF := by
  have hzext : ∀ v w : Nib, zext8 (v ^^^ w) = zext8 v ^^^ zext8 w := by decide
  rw [hzext, zext8_lowNib, zext8_lowNib]
  ext k
  simp only [BitVec.getElem_and, BitVec.getElem_xor, Bool.and_xor_distrib_right]

/-- R122: XOR16 of two fields answers their exclusive OR. -/
theorem exec_xor16_of_length {e : List Byte} (h : e.length = 32) (s : State) :
    exec (.xor16 e) s = .next (s.present (okResponse
      (nibElems (xorNibbles ((e.take 16).map lowNib) ((e.drop 16).map lowNib))))) := by
  obtain ⟨f, hf, hlist⟩ := xorField_ok (a := (e.take 16).map lowNib) (b := (e.drop 16).map lowNib)
    (by simp [h]) (by simp [h])
  rw [exec, execXor16, if_neg (not_not.mpr h), hf, ← hlist, answerField, respond]

theorem exec_xor16_of_length_ne {e : List Byte} (h : e.length ≠ 32) (s : State) :
    exec (.xor16 e) s = raise .fieldLen s := if_pos h

/-- R122 on two lists of output elements, one for each field. -/
theorem exec_xor16_nibElems {a b : List Nib} (ha : a.length = 16) (hb : b.length = 16) (s : State) :
    exec (.xor16 (nibElems a ++ nibElems b)) s =
      .next (s.present (okResponse (nibElems (xorNibbles a b)))) := by
  have hfirst : (nibElems a ++ nibElems b).take 16 = nibElems a := List.take_left' (by simp [ha])
  have hsecond : (nibElems a ++ nibElems b).drop 16 = nibElems b := List.drop_left' (by simp [ha])
  rw [exec_xor16_of_length (by simp [ha, hb]), hfirst, hsecond, map_lowNib_nibElems, map_lowNib_nibElems]

theorem resultOf_xor16_nibElems {a b : List Nib} (ha : a.length = 16) (hb : b.length = 16) (s : State) :
    resultOf (.xor16 (nibElems a ++ nibElems b)) s = some (nibElems (xorNibbles a b)) :=
  resultOf_of_exec_ok (exec_xor16_nibElems ha hb s)

/-- R62: the header of a success with 16 elements. -/
theorem okResponse_of_length_16 {p : List Byte} (h : p.length = 16) : okResponse p = ⟨0x0010, p⟩ := by
  rw [okResponse, h]
  rfl

/-- Lane `k` of the result is made of elements `k` and `16+k`. -/
theorem xor16_lane {e : List Byte} (h : e.length = 32) {k : Nat} (hk : k < 16) :
    (nibElems (xorNibbles ((e.take 16).map lowNib) ((e.drop 16).map lowNib))).getD k 0 =
      (e.getD k 0 ^^^ e.getD (16 + k) 0) &&& 0xF := by
  have hfirst : k < e.length := by omega
  have hsecond : 16 + k < e.length := by omega
  simp [nibElems, xorNibbles, List.getD_eq_getElem?_getD, h, hk, List.getElem?_eq_getElem hfirst,
    List.getElem?_eq_getElem hsecond, zext8_xor_lowNib]

/-- Settles O21: 32 elements are combined lane by lane, any other number is refused. -/
theorem xor16AnswersTheExclusiveOr : Obligations.Xor16AnswersTheExclusiveOr := by
  intro e s
  constructor
  · intro hlen
    have hresult := (nibElems_length _).trans <| xorNibbles_length
      (a := (e.take 16).map lowNib) (b := (e.drop 16).map lowNib) (by simp [hlen]) (by simp [hlen])
    refine ⟨_, hresult, fun k => xor16_lane hlen, ?_⟩
    rw [exec_xor16_of_length hlen, okResponse_of_length_16 hresult, State.present]
  · intro hlen
    rw [exec_xor16_of_length_ne hlen, raise_of_errHeader (h := 0x400A) (by decide)]

/-- Settles O44: the laws are those of the exclusive OR of nibble sequences. -/
theorem xor16Laws : Obligations.Xor16Laws := by
  intro a b s
  have ha : a.toList.length = 16 := a.length_toList
  have hb : b.toList.length = 16 := b.length_toList
  have hzeros : nibElems (List.replicate 16 0) = List.replicate 16 0 := by decide
  refine ⟨?_, ?_, ?_, _, resultOf_xor16_nibElems ha hb s, ?_⟩
  · rw [resultOf_xor16_nibElems ha ha, xorNibbles_self, ha, hzeros]
  · have hneutral := xorNibbles_zeros a.toList
    rw [ha] at hneutral
    rw [← hzeros, resultOf_xor16_nibElems ha List.length_replicate, hneutral]
  · rw [resultOf_xor16_nibElems ha hb, resultOf_xor16_nibElems hb ha, xorNibbles_comm]
  · rw [resultOf_xor16_nibElems (xorNibbles_length ha hb) hb, xorNibbles_cancel (ha.trans hb.symm)]

/-! ### PINEXT -/

section
variable {f : Field16}

theorem pinExtract_of_tag_ne (h0 : f[0] ≠ 3) : pinExtract f = .error .badTag := if_pos h0

theorem pinExtract_of_length (h0 : f[0] = 3) (h1 : f[1].toNat < 4 ∨ 12 < f[1].toNat) :
    pinExtract f = .error .badPinlen := by
  rw [pinExtract, if_neg (not_not.mpr h0), if_pos h1]

theorem pinExtract_ok (h0 : f[0] = 3) (h4 : 4 ≤ f[1].toNat) (h12 : f[1].toNat ≤ 12) :
    pinExtract f = .ok ((f.toList.drop 2).take f[1].toNat) := by
  rw [pinExtract, if_neg (not_not.mpr h0), if_neg (by simp only [Config.pinMin, Config.pinMax]; omega)]

end

theorem exec_pinext_of_length {e : List Byte} (h : e.length = 16) (s : State) :
    exec (.pinext e) s = answer ((pinExtract (fieldOfList (e.map lowNib))).map nibElems) s :=
  if_neg (not_not.mpr h)

/-- The tag nibble of a field of elements is 3 when the low half of element 0 is (R42). -/
theorem fieldOfList_lowNib_tag (e : List Byte) :
    (fieldOfList (e.map lowNib))[0] = 3 ↔ e.getD 0 0 &&& 0xF = 3 := by
  have hlow : ∀ x : Byte, lowNib x = 3 ↔ x &&& 0xF = 3 := by decide
  have h0 : lowNib 0 = 0 := by decide
  rw [← hlow, fieldOfList, Vector.getElem_ofFn, ← h0, List.getD_map]

/-- Settles O22: the checks pass, and the digits are listed as elements. -/
theorem pinextAnswersTheDigits : Obligations.PinextAnswersTheDigits := by
  intro e s L hlen htag hL h4 h12
  rw [← fieldOfList_lowNib_tag] at htag
  rw [← fieldOfList_lowNib_one] at hL
  have hdigits : ((e.drop 2).take L).length = L := by simp; omega
  rw [exec_pinext_of_length hlen, pinExtract_ok htag (hL ▸ h4) (hL ▸ h12), hL,
    fieldOfList_toList (by simp [hlen]), Except.map, answer_ok, ← List.map_drop, ← List.map_take,
    nibElems_map_lowNib, State.present, okResponse, List.length_map, hdigits, okHeader]

/-- Settles O31: the length of the payload is looked at first, then the tag, then the length nibble. -/
theorem pinextErrors : Obligations.PinextErrors := by
  intro e s
  refine ⟨fun hlen => ?_, fun hlen htag => ?_, fun hlen htag hL => ?_⟩
  · rw [← raise_of_errHeader (c := .fieldLen) (by decide)]
    exact if_pos hlen
  · rw [← raise_of_errHeader (c := .badTag) (by decide), exec_pinext_of_length hlen,
      pinExtract_of_tag_ne (mt (fieldOfList_lowNib_tag e).mp htag), Except.map, answer]
  · rw [← fieldOfList_lowNib_one] at hL
    rw [← raise_of_errHeader (c := .badPinlen) (by decide), exec_pinext_of_length hlen,
      pinExtract_of_length ((fieldOfList_lowNib_tag e).mpr htag) hL, Except.map, answer]

end Sys2Proof.Machine
end

section
/-! ## PROOFS: what a block says of its PIN, and what decoding gives back -/

namespace Sys2Proof.Machine

/-! ### The padding -/

/-- R125: the extractor looks at the field up to the last digit only. -/
theorem pinExtract_eq_of_take {f f' : Field16}
    (h : f.toList.take (2 + f[1].toNat) = f'.toList.take (2 + f[1].toNat)) :
    pinExtract f = pinExtract f' := by
  have hnib (k : Nat) (hk : k < 2) : f.toList[k]? = f'.toList[k]? := by
    have := congrArg (·[k]?) h
    rwa [List.getElem?_take_of_lt (by omega), List.getElem?_take_of_lt (by omega)] at this
  have h0 : f[0] = f'[0] := by simpa using hnib 0
  have h1 : f[1] = f'[1] := by simpa using hnib 1
  simp only [pinExtract, List.take_drop, ← h0, ← h1, h]

/-- R142: the decode chain looks at the block up to the last digit only. -/
theorem decodeField_eq_of_take {c c' : List Nib} {p : Field16} (hc : c.length = 16)
    (hc' : c'.length = 16) {L : Nat} (hL : L = ((xorNibbles c p.toList).getD 1 0).toNat)
    (h : c.take (2 + L) = c'.take (2 + L)) : decodeField c p = decodeField c' p := by
  obtain ⟨f, hx, hf⟩ := xorField_ok hc p.length_toList
  obtain ⟨f', hx', hf'⟩ := xorField_ok hc' p.length_toList
  rw [← hf, ← getElem_one_eq] at hL
  have hclear : f.toList.take (2 + f[1].toNat) = f'.toList.take (2 + f[1].toNat) := by
    rw [← hL, hf, hf', take_xorNibbles, take_xorNibbles, h]
  simp only [decodeField, hx, hx', pinExtract_eq_of_take hclear]

/-- R143: DECODE of a legal block string is the decode chain on its nibbles. -/
theorem exec_decode_of_legal {b : List Byte} (hlen : b.length = 16) (hhex : ∀ c ∈ b, ishex c = true)
    (s : State) : exec (.decode b) s = answer (decodeField (b.map hexval) s.panf) s := by
  have hall := (allHex_iff b).mpr hhex
  rw [exec, execDecode, if_neg (not_not.mpr hlen), if_neg (by simp [hall])]

/-- R145: DECODEB of 8 bytes is the decode chain on their nibbles. -/
theorem exec_decodeb_of_length {b : List Byte} (hlen : b.length = 8) (s : State) :
    exec (.decodeb b) s = answer (decodeField (unpackBytes b) s.panf) s := if_neg (not_not.mpr hlen)

/-- Settles O41: the three operations look at their clear field through the extractor. -/
theorem paddingIsNotLookedAt : Obligations.PaddingIsNotLookedAt := by
  refine ⟨?_, ?_, ?_⟩
  · intro e e' s hlen hlen' h
    rw [lowNib_toNat, ← fieldOfList_lowNib_one] at h
    have hfield : pinExtract (fieldOfList (e.map lowNib)) = pinExtract (fieldOfList (e'.map lowNib)) := by
      apply pinExtract_eq_of_take
      rw [fieldOfList_toList (by simp [hlen]), fieldOfList_toList (by simp [hlen']), ← List.map_take, h,
        List.map_take]
    rw [exec_pinext_of_length hlen, hfield, exec_pinext_of_length hlen']
  · intro b b' s L hlen hlen' hL h
    rw [exec_decodeb_of_length hlen, exec_decodeb_of_length hlen',
      decodeField_eq_of_take (by simp [hlen]) (by simp [hlen']) hL h]
  · intro b b' s L hlen hlen' hhex hhex' hL h
    rw [exec_decode_of_legal hlen hhex, exec_decode_of_legal hlen' hhex',
      decodeField_eq_of_take (by simp [hlen]) (by simp [hlen']) hL h]

/-! ### What a block shows -/

/-- R139, R138: ENCODE of a legal PIN answers the exclusive OR of its PIN field and `PANF`. -/
theorem exec_encode_of_legal {pin : List Byte} (h4 : 4 ≤ pin.length) (h12 : pin.length ≤ 12)
    (hhex : ∀ c ∈ pin, ishex c = true) (rnd : Draws) (s : State) :
    exec (.encode pin rnd) s =
      .next (s.present (okResponse ((xorNibbles (pinNibbles pin rnd) s.panf.toList).map hexup))) := by
  obtain ⟨f, hf, hpin⟩ := pinField_ok rnd h4 h12 ((allHex_iff pin).mpr hhex)
  obtain ⟨c, hc, hblock⟩ := xorField_ok f.length_toList s.panf.length_toList
  simp only [exec, execEncode, encodeField, hf, hc, ← hpin, ← hblock, Except.map, answer_ok]

/-- Only a legal PIN is encoded. -/
theorem legal_of_encode_ok {pin : List Byte} {rnd : Draws} {s t : State} {b : List Byte}
    (h : exec (.encode pin rnd) s = .next t) (hb : t.rsp = some (okResponse b)) :
    4 ≤ pin.length ∧ pin.length ≤ 12 ∧ ∀ c ∈ pin, ishex c = true := by
  have hraise {c : Cause} (hc : pinField pin rnd = .error c) : False := by
    obtain ⟨-, hexec, -⟩ := exec_of_pinField_error hc s
    cases hexec.symm.trans h
    exact okResponse_ne_errResponse b c (Option.some.inj hb).symm
  rcases pinField_cases pin rnd with ⟨-, e⟩ | ⟨-, -, -, e⟩ | ⟨h4, h12, hall, -⟩
  · exact (hraise e).elim
  · exact (hraise e).elim
  · exact ⟨h4, h12, (allHex_iff pin).mp hall⟩

/-- R21: a PAN field begins with four zeros. -/
theorem take_four_of_panfOk {p : Field16} (hp : PanfOk p) : p.toList.take 4 = List.replicate 4 0 := by
  obtain ⟨h0, h1, h2, h3⟩ := (panfOk_iff p).mp hp
  apply List.ext_getElem (by simp)
  intro k hk _
  simp only [List.length_take, Vector.length_toList] at hk
  match k, hk with
  | 0, _ | 1, _ | 2, _ | 3, _ => simpa

/-- R123(c): exclusive OR with a PAN field leaves the first four nibbles alone. -/
theorem take_four_xorNibbles {p : Field16} (hp : PanfOk p) {v : List Nib} (hv : 4 ≤ v.length) :
    (xorNibbles v p.toList).take 4 = v.take 4 := by
  have hzeros := xorNibbles_zeros (v.take 4)
  rw [List.length_take_of_le hv] at hzeros
  rw [take_xorNibbles, take_four_of_panfOk hp, hzeros]

/-- R96: a PIN field begins with the tag, the length and the first two digits. -/
theorem take_four_pinNibbles {pin : List Byte} (rnd : Draws) (h2 : 2 ≤ pin.length) :
    (pinNibbles pin rnd).take 4 =
      [3, BitVec.ofNat 4 pin.length, hexval (pin.getD 0 0), hexval (pin.getD 1 0)] := by
  match pin, h2 with
  | _ :: _ :: _, _ => rfl

/-- Settles O45: the first four nibbles of `PANF` are zero, so the block begins as the PIN field does. -/
theorem blocksShowTheirFirstFourNibbles : Obligations.BlocksShowTheirFirstFourNibbles := by
  intro pin rnd s t b hs h hb
  obtain ⟨h4, h12, hhex⟩ := legal_of_encode_ok h hb
  have hlen := pinNibbles_length rnd h4 h12
  cases (exec_encode_of_legal h4 h12 hhex rnd s).symm.trans h
  rw [← okResponse_inj (Option.some.inj hb), ← List.map_take, take_four_xorNibbles hs (by omega),
    take_four_pinNibbles rnd (by omega)]
  rfl

/-! ### What decoding a block gives back -/

/-- R98: the digits of a PIN field. -/
theorem digits_pinNibbles (pin : List Byte) (rnd : Draws) :
    ((pinNibbles pin rnd).drop 2).take pin.length = pin.map hexval :=
  List.take_left' (List.length_map _)

/-- The extractor gives back the digits of a generated PIN field. -/
theorem pinExtract_pinField {pin : List Byte} {rnd : Draws} {f : Field16} (h4 : 4 ≤ pin.length)
    (h12 : pin.length ≤ 12) (hf : f.toList = pinNibbles pin rnd) :
    pinExtract f = .ok (pin.map hexval) := by
  have htag : f[0] = 3 := by
    rw [← Vector.getElem_toList (by simp)]
    simp [hf, pinNibbles]
  have hL : f[1].toNat = pin.length := by
    rw [getElem_one_eq, hf]
    exact Nat.mod_eq_of_lt (by omega)
  rw [pinExtract_ok htag (by omega) (by omega), hL, hf, digits_pinNibbles]

/-- R148: the decode chain undoes the exclusive OR of the encode chain, at every `PANF`. -/
theorem decodeField_block {pin : List Byte} (h4 : 4 ≤ pin.length) (h12 : pin.length ≤ 12)
    (rnd : Draws) (p : Field16) :
    decodeField (xorNibbles (pinNibbles pin rnd) p.toList) p = .ok (pinString (pin.map hexval)) := by
  have hlen := pinNibbles_length rnd h4 h12
  obtain ⟨f, hx, hf⟩ := xorField_ok (xorNibbles_length hlen p.length_toList) p.length_toList
  rw [xorNibbles_cancel (hlen.trans p.length_toList.symm)] at hf
  simp only [decodeField, hx, pinExtract_pinField h4 h12 hf]

/-- R139, R143: DECODE of the characters of a block is the decode chain on its nibbles. -/
theorem exec_decode_map_hexup {c : List Nib} (hc : c.length = 16) (s : State) :
    exec (.decode (c.map hexup)) s = answer (decodeField c s.panf) s := by
  have hhex : ∀ x ∈ c.map hexup, ishex x = true := by simp
  rw [exec_decode_of_legal (by simp [hc]) hhex, List.map_map,
    show hexval ∘ hexup = id from funext hexval_hexup, List.map_id]

/-- A hex digit whose value is rendered with one character is a decimal digit. -/
theorem decimal_of_hexval_lt : ∀ c : Byte, ishex c = true → (hexval c).toNat < 10 →
    0x30 ≤ c.toNat ∧ c.toNat ≤ 0x39 := by decide

/-- R129: the rendering of the digits of a hex string is longer than the string if a digit is above 9, and
otherwise the string is decimal and its own rendering. -/
theorem pinString_map_hexval_eq_iff {pin : List Byte} (hhex : ∀ c ∈ pin, ishex c = true) :
    pinString (pin.map hexval) = pin ↔ ∀ c ∈ pin, 0x30 ≤ c.toNat ∧ c.toNat ≤ 0x39 := by
  constructor
  · intro h c hc
    have hcount := pinString_length (pin.map hexval)
    rw [h, List.length_map, Nat.left_eq_add, List.countP_eq_zero] at hcount
    have hdigit := hcount _ (List.mem_map_of_mem hc)
    exact decimal_of_hexval_lt c (hhex c hc) (by simpa using hdigit)
  · intro hdec
    rw [pinString, List.flatMap_map, List.flatMap_congr fun c hc => decstr_hexval (hdec c hc),
      List.flatMap_singleton']

/-- Settles O53: decoding gives the numerals of the digits, which are the PIN when they are as many. -/
theorem decodedPinsAreRenderedDigits : Obligations.DecodedPinsAreRenderedDigits := by
  intro pin rnd s h4 h12 hhex
  have hblock : (xorNibbles (pinNibbles pin rnd) s.panf.toList).length = 16 :=
    xorNibbles_length (pinNibbles_length rnd h4 h12) s.panf.length_toList
  refine ⟨_, _, _, exec_encode_of_legal h4 h12 hhex rnd s, rfl, ?_, rfl,
    pinString_map_hexval_eq_iff hhex⟩
  rw [exec_decode_map_hexup hblock, present_panf, decodeField_block h4 h12]
  rfl

end Sys2Proof.Machine
end

section
/-! ## PROOFS: what SETPAN stores, and the blocks that ENCODE and ENCODEB answer -/

namespace Sys2Proof.Machine

/-! ### The response of an operation that ends -/

theorem responseOf_of_exec_next {i : Instr} {s t : State} (h : exec i s = .next t) :
    responseOf i s = t.rsp := by
  simp only [responseOf, h]

/-- What the units return is the result of the operation; where they raise there is none. -/
theorem resultOf_of_exec_answer {i : Instr} {s : State} {res : Except Cause (List Byte)}
    (h : exec i s = answer res s) : resultOf i s = res.toOption := by
  cases res with
  | ok p => exact resultOf_of_exec_ok h
  | error c =>
    have hresp : responseOf i s = some (errResponse c) := responseOf_of_exec_next h
    simp only [resultOf, hresp, status_errResponse, status_ne_zero, if_false]
    rfl

theorem resultOf_of_exec_raise {i : Instr} {s : State} {c : Cause} (h : exec i s = raise c s) :
    resultOf i s = none :=
  resultOf_of_exec_answer (res := .error c) h

/-- The response of an operation that succeeds is no error. -/
theorem status_eq_zero_of_exec_ok {i : Instr} {s t : State} {p : List Byte} {r : Response}
    (h : exec i s = .next (t.present (okResponse p))) (hr : responseOf i s = some r) : r.status = 0 := by
  cases (responseOf_of_exec_next h).symm.trans hr
  exact status_okResponse p

/-! ### SETPAN -/

theorem okResponse_nil : okResponse [] = ⟨0, []⟩ := by decide

/-- R22: nibble `4+k` of a PAN field is the value of the character at `n-13+k`. -/
theorem panNibbles_getD {pan : List Byte} (hlen : 13 ≤ pan.length) {k : Nat} (hk : k < 12) :
    (panNibbles pan).getD (4 + k) 0 = hexval (pan.getD (pan.length - 13 + k) 0) := by
  have hpos : pan.length - 13 + k < pan.length := by omega
  have hskip : (panNibbles pan)[4 + k]? = (((pan.drop (pan.length - 13)).take 12).map hexval)[k]? := by
    rw [panNibbles, List.getElem?_append_right (by simp)]
    simp
  rw [List.getD_eq_getElem?_getD, hskip, List.getElem?_map, List.getElem?_take_of_lt hk,
    List.getElem?_drop, List.getD_eq_getElem?_getD, List.getElem?_eq_getElem hpos]
  rfl

/-- Settles O16: the extractor accepts the string, and its field lists the nibbles of R91. -/
theorem setpanReplacesThePanField : Obligations.SetpanReplacesThePanField := by
  intro pan s hlen hhex
  obtain ⟨f, hf, hnibbles⟩ := panField_ok hlen ((allHex_iff pan).mpr hhex)
  refine ⟨f, hnibbles, panField_zeros hf, fun k => ?_, ?_⟩
  · rw [fieldP, hnibbles, panNibbles_getD hlen k.isLt]
  · rw [exec, execSetpan_of_ok hf, okResponse_nil]
    rfl

/-- Settles O50: both operations are the same extraction, which returns a field or raises. -/
theorem setpanStoresWhatPanprepReturns : Obligations.SetpanStoresWhatPanprepReturns := by
  intro pan s
  cases hf : panField pan with
  | error c =>
    obtain ⟨hsetpan, hpanprep⟩ := exec_of_panField_error hf s
    refine ⟨fun v hv => ?_, fun r hr _ => ?_⟩
    · cases (resultOf_of_exec_raise hpanprep).symm.trans hv
    · cases (responseOf_of_exec_next hpanprep).symm.trans hr
      exact hsetpan
  | ok f =>
    have hpanprep : exec (.panprep pan) s = .next (s.present (okResponse (nibElems f.toList))) := by
      rw [exec, execPanprep, hf, answerField, respond]
    refine ⟨fun v hv => ⟨f, ?_, ?_⟩, fun r hr hs => ?_⟩
    · exact Option.some.inj ((resultOf_of_exec_ok hpanprep).symm.trans hv)
    · rw [exec, execSetpan_of_ok hf, okResponse_nil]
      rfl
    · exact absurd (status_eq_zero_of_exec_ok hpanprep hr) hs

/-! ### The block of a PIN -/

section
variable {pin : List Byte} (h4 : 4 ≤ pin.length) (h12 : pin.length ≤ 12) (rnd : Draws)
include h4 h12

/-- R138: the block of a PIN has 16 nibbles. -/
theorem block_length (p : Field16) : (xorNibbles (pinNibbles pin rnd) p.toList).length = 16 :=
  xorNibbles_length (pinNibbles_length rnd h4 h12) p.length_toList

variable (hhex : ∀ c ∈ pin, ishex c = true) (s : State)
include hhex

/-- R99: PINGEN of a legal PIN answers the elements of its PIN field. -/
theorem exec_pingen_of_legal :
    exec (.pingen pin rnd) s = .next (s.present (okResponse (nibElems (pinNibbles pin rnd)))) := by
  obtain ⟨f, hf, hpin⟩ := pinField_ok rnd h4 h12 ((allHex_iff pin).mpr hhex)
  rw [exec, execPingen, hf, ← hpin, answerField, respond]

/-- R141: ENCODEB of a legal PIN answers its block, packed. -/
theorem exec_encodeb_of_legal :
    exec (.encodeb pin rnd) s =
      .next (s.present (okResponse
        (packPairs (nibElems (xorNibbles (pinNibbles pin rnd) s.panf.toList))))) := by
  obtain ⟨f, hf, hpin⟩ := pinField_ok rnd h4 h12 ((allHex_iff pin).mpr hhex)
  obtain ⟨c, hc, hblock⟩ := xorField_ok f.length_toList s.panf.length_toList
  have hchain : encodeField pin rnd s.panf = .ok c := by simp only [encodeField, hf, hc]
  rw [exec, execEncodeb_eq_answer, hchain, ← hpin, ← hblock, Except.bind, packElems_even (by simp), answer_ok]

end

/-- Settles O23: the block has 16 characters. -/
theorem encodeAnswersTheBlockString : Obligations.EncodeAnswersTheBlockString := by
  intro pin rnd s h4 h12 hhex
  have hlen := block_length h4 h12 rnd s.panf
  rw [exec_encode_of_legal h4 h12 hhex, okResponse_of_length_16 ((List.length_map _).trans hlen),
    State.present]

/-- R62: the header of a success with 8 elements. -/
theorem okResponse_of_length_8 {p : List Byte} (h : p.length = 8) : okResponse p = ⟨0x0008, p⟩ := by
  rw [okResponse, h]
  rfl

/-- Unpacking what nibbles were packed into gives them back. -/
theorem unpackBytes_packPairs_nibElems {v : List Nib} (h : v.length = 16) :
    unpackBytes (packPairs (nibElems v)) = v := by
  rw [unpackBytes_packPairs _ (by simp [h]), map_lowNib_nibElems]

theorem length_packPairs_nibElems {v : List Nib} (h : v.length = 16) :
    (packPairs (nibElems v)).length = 8 := by
  rw [packPairs_length, nibElems_length, h]

/-- Settles O24: the packed block has 8 bytes, whose halves are its nibbles. -/
theorem encodebAnswersTheBlockBytes : Obligations.EncodebAnswersTheBlockBytes := by
  intro pin rnd s h4 h12 hhex
  have hlen := block_length h4 h12 rnd s.panf
  refine ⟨_, length_packPairs_nibElems hlen, unpackBytes_packPairs_nibElems hlen, ?_⟩
  rw [exec_encodeb_of_legal h4 h12 rnd hhex, okResponse_of_length_8 (length_packPairs_nibElems hlen),
    State.present]

/-- A PIN is legal, or the three operations on PINs raise the same error. -/
theorem legal_or_exec_raise (pin : List Byte) (rnd : Draws) (s : State) :
    (4 ≤ pin.length ∧ pin.length ≤ 12 ∧ ∀ c ∈ pin, ishex c = true) ∨
    ∃ c, exec (.pingen pin rnd) s = raise c s ∧ exec (.encode pin rnd) s = raise c s ∧
      exec (.encodeb pin rnd) s = raise c s := by
  rcases pinField_cases pin rnd with ⟨-, e⟩ | ⟨-, -, -, e⟩ | ⟨h4, h12, hall, -⟩
  · exact .inr ⟨_, exec_of_pinField_error e s⟩
  · exact .inr ⟨_, exec_of_pinField_error e s⟩
  · exact .inl ⟨h4, h12, (allHex_iff pin).mp hall⟩

/-- Settles O48: of a legal PIN the units make the block, packed and then rendered; of any other the three
operations raise the same error. -/
theorem encodeIsTheChainOfUnits : Obligations.EncodeIsTheChainOfUnits := by
  intro pin rnd s
  rcases legal_or_exec_raise pin rnd s with ⟨h4, h12, hhex⟩ | ⟨c, hpingen, hencode, hencodeb⟩
  · have hpingen := exec_pingen_of_legal h4 h12 rnd hhex s
    have heven : (xorNibbles (pinNibbles pin rnd) s.panf.toList).length % 2 = 0 := by
      rw [block_length h4 h12]
    refine ⟨fun f hf => ?_, fun r hr hs => absurd (status_eq_zero_of_exec_ok hpingen hr) hs⟩
    cases (resultOf_of_exec_ok hpingen).symm.trans hf
    refine ⟨_, _, resultOf_xor16_nibElems (pinNibbles_length rnd h4 h12) s.panf.length_toList s,
      resultOf_of_exec_ok (exec_pack_even ((congrArg (· % 2) (nibElems_length _)).trans heven) s),
      resultOf_of_exec_ok (exec_encodeb_of_legal h4 h12 rnd hhex s), ?_⟩
    rw [hexRendering_packPairs_nibElems _ heven]
    exact resultOf_of_exec_ok (exec_encode_of_legal h4 h12 hhex rnd s)
  · refine ⟨fun f hf => ?_, fun r hr _ => ?_⟩
    · cases (resultOf_of_exec_raise hpingen).symm.trans hf
    · cases (responseOf_of_exec_next hpingen).symm.trans hr
      exact ⟨responseOf_of_exec_next hencodeb, responseOf_of_exec_next hencode⟩

end Sys2Proof.Machine
end

section
/-! ## PROOFS: what DECODE and DECODEB accept, and the round trips -/

namespace Sys2Proof.Machine

/-! ### The decode chain on the nibbles of a block -/

theorem fieldOfList_tag (v : List Nib) : (fieldOfList v)[0] = v.getD 0 0 := Vector.getElem_ofFn _

theorem fieldOfList_length (v : List Nib) : (fieldOfList v)[1] = v.getD 1 0 := Vector.getElem_ofFn _

/-- R142: decoding renders what the extractor finds in the block combined with `PANF`. -/
theorem decodeField_eq_map_pinExtract {c : List Nib} (hc : c.length = 16) (p : Field16) :
    decodeField c p = (pinExtract (fieldOfList (xorNibbles c p.toList))).map pinString := by
  obtain ⟨f, hx, hf⟩ := xorField_ok hc p.length_toList
  rw [← hf, fieldOfList_of_toList]
  simp only [decodeField, hx]
  cases pinExtract f <;> rfl

section
variable {c f : List Nib} {p : Field16} (hc : c.length = 16) (hf : f = xorNibbles c p.toList)
include hc hf

theorem decodeField_of_tag_ne (h0 : f.getD 0 0 ≠ 3) : decodeField c p = .error .badTag := by
  rw [← fieldOfList_tag] at h0
  rw [decodeField_eq_map_pinExtract hc, ← hf, pinExtract_of_tag_ne h0, Except.map]

theorem decodeField_of_length (h0 : f.getD 0 0 = 3)
    (h1 : (f.getD 1 0).toNat < 4 ∨ 12 < (f.getD 1 0).toNat) :
    decodeField c p = .error .badPinlen := by
  rw [← fieldOfList_tag] at h0
  rw [← fieldOfList_length] at h1
  rw [decodeField_eq_map_pinExtract hc, ← hf, pinExtract_of_length h0 h1, Except.map]

theorem decodeField_ok (h0 : f.getD 0 0 = 3) (h4 : 4 ≤ (f.getD 1 0).toNat)
    (h12 : (f.getD 1 0).toNat ≤ 12) :
    decodeField c p = .ok (pinString ((f.drop 2).take (f.getD 1 0).toNat)) := by
  have hlen : f.length = 16 := hf ▸ xorNibbles_length hc p.length_toList
  rw [← fieldOfList_tag] at h0
  rw [← fieldOfList_length] at h4 h12 ⊢
  rw [decodeField_eq_map_pinExtract hc, ← hf, pinExtract_ok h0 h4 h12, fieldOfList_toList hlen, Except.map]

/-- R144: the chain looks at the tag and the length nibble. -/
theorem exists_decodeField_ok_iff :
    (∃ v, decodeField c p = .ok v) ↔
      f.getD 0 0 = 3 ∧ 4 ≤ (f.getD 1 0).toNat ∧ (f.getD 1 0).toNat ≤ 12 := by
  constructor
  · rintro ⟨v, hv⟩
    have htag : f.getD 0 0 = 3 := by
      by_contra h0
      cases (decodeField_of_tag_ne hc hf h0).symm.trans hv
    refine ⟨htag, ?_⟩
    by_contra hL
    cases (decodeField_of_length hc hf htag (by omega)).symm.trans hv
  · rintro ⟨h0, h4, h12⟩
    exact ⟨_, decodeField_ok hc hf h0 h4 h12⟩

end

/-! ### The answers of DECODE and DECODEB -/

section
variable {c f : List Nib} {s : State} (hc : c.length = 16) (hf : f = xorNibbles c s.panf.toList)
include hc hf

/-- R142, R128: the answer of the chain on a block with a legal tag and length. -/
theorem answer_decodeField_ok {L : Nat} (h0 : f.getD 0 0 = 3) (hL : (f.getD 1 0).toNat = L)
    (h4 : 4 ≤ L) (h12 : L ≤ 12) : answer (decodeField c s.panf) s =
      .next { s with rsp := some (okResponse (((f.drop 2).take L).flatMap decstr)) } := by
  rw [decodeField_ok hc hf h0 (hL ▸ h4) (hL ▸ h12), hL, answer_ok, State.present, pinString]

/-- R125, R166: the tag is looked at first, then the length nibble. -/
theorem answer_decodeField_error :
    (f.getD 0 0 ≠ 3 →
      answer (decodeField c s.panf) s = .next { s with rsp := some ⟨0x3008, []⟩ }) ∧
    (f.getD 0 0 = 3 → ((f.getD 1 0).toNat < 4 ∨ 12 < (f.getD 1 0).toNat) →
      answer (decodeField c s.panf) s = .next { s with rsp := some ⟨0x3009, []⟩ }) := by
  constructor
  · intro h0
    rw [decodeField_of_tag_ne hc hf h0, ← raise_of_errHeader (c := .badTag) (by decide), answer]
  · intro h0 h1
    rw [decodeField_of_length hc hf h0 h1, ← raise_of_errHeader (c := .badPinlen) (by decide), answer]

end

/-- Settles O25: DECODE is the chain on the values of the characters. -/
theorem decodeAnswersThePinString : Obligations.DecodeAnswersThePinString := by
  intro b s f L hlen hhex hf h0 hL h4 h12
  rw [exec_decode_of_legal hlen hhex,
    answer_decodeField_ok ((List.length_map _).trans hlen) hf h0 hL h4 h12]

/-- R113: 8 bytes have 16 halves. -/
theorem unpackBytes_length_16 {b : List Byte} (h : b.length = 8) : (unpackBytes b).length = 16 := by
  rw [unpackBytes_length, h]

/-- Settles O26: DECODEB is the chain on the halves of the bytes. -/
theorem decodebAnswersThePinString : Obligations.DecodebAnswersThePinString := by
  intro b s f L hlen hf h0 hL h4 h12
  rw [exec_decodeb_of_length hlen, answer_decodeField_ok (unpackBytes_length_16 hlen) hf h0 hL h4 h12]

theorem exec_decode_of_length_ne {b : List Byte} (h : b.length ≠ 16) (s : State) :
    exec (.decode b) s = raise .blkstrLen s := if_pos h

theorem exec_decode_of_not_hex {b : List Byte} (hlen : b.length = 16) (h : allHex b = false)
    (s : State) : exec (.decode b) s = raise .blkstrChar s := by
  rw [exec, execDecode, if_neg (not_not.mpr hlen), if_pos h]

theorem exec_decodeb_of_length_ne {b : List Byte} (h : b.length ≠ 8) (s : State) :
    exec (.decodeb b) s = raise .blkbytesLen s := if_pos h

/-- Settles O30: the checks of the operand come first, then the two of the chain. -/
theorem blockErrors : Obligations.BlockErrors := by
  refine ⟨fun b s => ⟨fun hlen => ?_, fun hlen hchar => ?_, fun hlen => ?_⟩,
    fun b s f hlen hhex hf => ?_, fun b s f hlen hf => ?_⟩
  · rw [exec_decode_of_length_ne hlen, raise_of_errHeader (h := 0x1005) (by decide)]
  · rw [exec_decode_of_not_hex hlen ((allHex_false_iff b).mpr hchar),
      raise_of_errHeader (h := 0x2006) (by decide)]
  · rw [exec_decodeb_of_length_ne hlen, raise_of_errHeader (h := 0x1007) (by decide)]
  · rw [exec_decode_of_legal hlen hhex]
    exact answer_decodeField_error ((List.length_map _).trans hlen) hf
  · rw [exec_decodeb_of_length hlen]
    exact answer_decodeField_error (unpackBytes_length_16 hlen) hf

/-! ### Exactly which blocks are accepted -/

/-- R123(c): under the invariant the tag and the length nibble of a block are in clear. -/
theorem getD_xorNibbles_of_panfOk {p : Field16} (hp : PanfOk p) {c : List Nib} (hc : c.length = 16)
    {k : Nat} (hk : k < 4) : (xorNibbles c p.toList).getD k 0 = c.getD k 0 := by
  have hclear := congrArg (·[k]?) (take_four_xorNibbles hp (v := c) (by omega))
  simp only [List.getElem?_take_of_lt hk] at hclear
  rw [List.getD_eq_getElem?_getD, hclear, ← List.getD_eq_getElem?_getD]

/-- R144: under the invariant the chain accepts what begins with the tag and a legal length. -/
theorem exists_decodeField_ok_iff_of_panfOk {p : Field16} (hp : PanfOk p) {c : List Nib}
    (hc : c.length = 16) : (∃ v, decodeField c p = .ok v) ↔
      c.getD 0 0 = 3 ∧ 4 ≤ (c.getD 1 0).toNat ∧ (c.getD 1 0).toNat ≤ 12 := by
  rw [exists_decodeField_ok_iff hc rfl, getD_xorNibbles_of_panfOk hp hc (by decide),
    getD_xorNibbles_of_panfOk hp hc (by decide)]

/-- An operation has a result when its units return. -/
theorem exists_resultOf_iff {i : Instr} {s : State} {res : Except Cause (List Byte)}
    (h : exec i s = answer res s) : (∃ v, resultOf i s = some v) ↔ ∃ v, res = .ok v := by
  rw [resultOf_of_exec_answer h]
  cases res <;> simp [Except.toOption]

/-- R144: only a legal block string is decoded. -/
theorem legal_of_decode_result {b v : List Byte} {s : State} (h : resultOf (.decode b) s = some v) :
    b.length = 16 ∧ ∀ c ∈ b, ishex c = true := by
  have hlen : b.length = 16 := by
    by_contra hne
    cases (resultOf_of_exec_raise (exec_decode_of_length_ne hne s)).symm.trans h
  refine ⟨hlen, (allHex_iff b).mp ?_⟩
  by_contra hhex
  rw [Bool.not_eq_true] at hhex
  cases (resultOf_of_exec_raise (exec_decode_of_not_hex hlen hhex s)).symm.trans h

theorem length_of_decodeb_result {b v : List Byte} {s : State}
    (h : resultOf (.decodeb b) s = some v) : b.length = 8 := by
  by_contra hne
  cases (resultOf_of_exec_raise (exec_decodeb_of_length_ne hne s)).symm.trans h

theorem hexval_eq_tag_iff : ∀ c : Byte, ishex c = true → (hexval c = 3 ↔ c = 0x33) := by decide

theorem hexval_legal_length_iff : ∀ c : Byte, ishex c = true →
    (4 ≤ (hexval c).toNat ∧ (hexval c).toNat ≤ 12 ↔
      c ∈ ascii ['4', '5', '6', '7', '8', '9', 'A', 'B', 'C', 'a', 'b', 'c']) := by decide

/-- R145: a first byte that is the tag and a legal length. -/
theorem tag_and_length_byte_iff : ∀ x : Byte,
    highNib x = 3 ∧ 4 ≤ (lowNib x).toNat ∧ (lowNib x).toNat ≤ 12 ↔ 0x34 ≤ x.toNat ∧ x.toNat ≤ 0x3C := by
  decide

/-- R144(c): DECODE of a legal block string succeeds when the first two characters are right. -/
theorem decode_accepts_iff {b : List Byte} {s : State} (hs : s.Inv) (hlen : b.length = 16)
    (hhex : ∀ c ∈ b, ishex c = true) : (∃ v, resultOf (.decode b) s = some v) ↔
      b.getD 0 0 = 0x33 ∧
        b.getD 1 0 ∈ ascii ['4', '5', '6', '7', '8', '9', 'A', 'B', 'C', 'a', 'b', 'c'] := by
  rw [exists_resultOf_iff (exec_decode_of_legal hlen hhex s),
    exists_decodeField_ok_iff_of_panfOk hs ((List.length_map _).trans hlen)]
  match b, hlen with
  | x :: y :: _, _ =>
    simp only [List.forall_mem_cons] at hhex
    obtain ⟨hx, hy, -⟩ := hhex
    exact and_congr (hexval_eq_tag_iff x hx) (hexval_legal_length_iff y hy)

/-- R145: DECODEB of 8 bytes succeeds when the first byte is right. -/
theorem decodeb_accepts_iff {b : List Byte} {s : State} (hs : s.Inv) (hlen : b.length = 8) :
    (∃ v, resultOf (.decodeb b) s = some v) ↔
      0x34 ≤ (b.getD 0 0).toNat ∧ (b.getD 0 0).toNat ≤ 0x3C := by
  rw [exists_resultOf_iff (exec_decodeb_of_length hlen s),
    exists_decodeField_ok_iff_of_panfOk hs (unpackBytes_length_16 hlen)]
  match b, hlen with
  | x :: _, _ => exact tag_and_length_byte_iff x

/-- Settles O46: an accepted block is legal, and of a legal block the first nibbles decide. -/
theorem acceptedBlocks : Obligations.AcceptedBlocks := by
  intro b s hs
  refine ⟨⟨fun h => ?_, fun ⟨hlen, hhex, h⟩ => (decode_accepts_iff hs hlen hhex).mpr h⟩,
    ⟨fun h => ?_, fun ⟨hlen, h⟩ => (decodeb_accepts_iff hs hlen).mpr h⟩⟩
  · obtain ⟨v, hv⟩ := h
    obtain ⟨hlen, hhex⟩ := legal_of_decode_result hv
    exact ⟨hlen, hhex, (decode_accepts_iff hs hlen hhex).mp ⟨v, hv⟩⟩
  · obtain ⟨v, hv⟩ := h
    have hlen := length_of_decodeb_result hv
    exact ⟨hlen, (decodeb_accepts_iff hs hlen).mp ⟨v, hv⟩⟩

/-! ### Decoding under another PAN -/

/-- R150: whether a block is accepted, and the error if not, is the same at two values of `PANF` that meet
the invariant. -/
theorem decodeField_ok_or_same_error {p p' : Field16} (hp : PanfOk p) (hp' : PanfOk p') {c : List Nib}
    (hc : c.length = 16) :
    (∃ v v', decodeField c p = .ok v ∧ decodeField c p' = .ok v') ∨
    (∃ e, decodeField c p = .error e ∧ decodeField c p' = .error e) := by
  have hclear {k : Nat} (hk : k < 4) :
      (xorNibbles c p'.toList).getD k 0 = (xorNibbles c p.toList).getD k 0 := by
    rw [getD_xorNibbles_of_panfOk hp' hc hk, getD_xorNibbles_of_panfOk hp hc hk]
  have htag := hclear (k := 0) (by decide)
  have hlength := hclear (k := 1) (by decide)
  by_cases h0 : (xorNibbles c p.toList).getD 0 0 = 3
  · by_cases h1 : ((xorNibbles c p.toList).getD 1 0).toNat < 4 ∨
        12 < ((xorNibbles c p.toList).getD 1 0).toNat
    · exact .inr ⟨_, decodeField_of_length hc rfl h0 h1,
        decodeField_of_length hc rfl (htag ▸ h0) (hlength ▸ h1)⟩
    · rw [not_or, Nat.not_lt, Nat.not_lt] at h1
      obtain ⟨h4, h12⟩ := h1
      exact .inl ⟨_, _, decodeField_ok hc rfl h0 h4 h12,
        decodeField_ok hc rfl (htag ▸ h0) (hlength ▸ h4) (hlength ▸ h12)⟩
  · exact .inr ⟨_, decodeField_of_tag_ne hc rfl h0, decodeField_of_tag_ne hc rfl (htag ▸ h0)⟩

/-- A decoding refuses its operand in every state, or is the decode chain on 16 nibbles. -/
theorem decode_raises_or_answers_chain {i : Instr} (hi : ∃ b, i = .decode b ∨ i = .decodeb b) :
    (∃ e, ∀ s, exec i s = raise e s) ∨
    (∃ c : List Nib, c.length = 16 ∧ ∀ s, exec i s = answer (decodeField c s.panf) s) := by
  rcases hi with ⟨b, rfl | rfl⟩
  · by_cases hlen : b.length = 16
    · cases hhex : allHex b
      · exact .inl ⟨_, exec_decode_of_not_hex hlen hhex⟩
      · exact .inr ⟨_, (List.length_map _).trans hlen, exec_decode_of_legal hlen ((allHex_iff b).mp hhex)⟩
    · exact .inl ⟨_, exec_decode_of_length_ne hlen⟩
  · by_cases hlen : b.length = 8
    · exact .inr ⟨_, unpackBytes_length_16 hlen, exec_decodeb_of_length hlen⟩
    · exact .inl ⟨_, exec_decodeb_of_length_ne hlen⟩

/-- An operation that raises responds with the error. -/
theorem responseOf_of_exec_raise {i : Instr} {s : State} {e : Cause} (h : exec i s = raise e s) :
    responseOf i s = some (errResponse e) :=
  responseOf_of_exec_next h

/-- Settles O47: a refused operand is refused in every state, and the chain has the same verdict at both
values of `PANF`. -/
theorem wrongPanIsNotDetected : Obligations.WrongPanIsNotDetected := by
  intro i s s' r r' hi hs hs' hr hr'
  have same_error {e : Cause} (h : exec i s = raise e s) (h' : exec i s' = raise e s') : r = r' :=
    Option.some.inj <| calc some r
      _ = responseOf i s := hr.symm
      _ = responseOf i s' := (responseOf_of_exec_raise h).trans (responseOf_of_exec_raise h').symm
      _ = some r' := hr'
  rcases decode_raises_or_answers_chain hi with ⟨e, hraise⟩ | ⟨c, hc, hchain⟩
  · obtain rfl := same_error (hraise s) (hraise s')
    exact ⟨rfl, fun _ => rfl⟩
  · rcases decodeField_ok_or_same_error hs hs' hc with ⟨v, v', e, e'⟩ | ⟨err, e, e'⟩
    · have hok := status_eq_zero_of_exec_ok ((hchain s).trans (congrArg (answer · s) e)) hr
      have hok' := status_eq_zero_of_exec_ok ((hchain s').trans (congrArg (answer · s') e')) hr'
      exact ⟨hok.trans hok'.symm, fun hne => absurd hok hne⟩
    · obtain rfl := same_error ((hchain s).trans (congrArg (answer · s) e))
        ((hchain s').trans (congrArg (answer · s') e'))
      exact ⟨rfl, fun _ => rfl⟩

/-! ### DECODEB as a chain of units, and as DECODE -/

/-- R126 on a list of output elements. -/
theorem exec_pinext_nibElems {v : List Nib} (hv : v.length = 16) (s : State) :
    exec (.pinext (nibElems v)) s = answer ((pinExtract (fieldOfList v)).map nibElems) s := by
  rw [exec_pinext_of_length ((nibElems_length v).trans hv), map_lowNib_nibElems]

/-- R128: rendering the digits that stand in elements. -/
theorem flatMap_decstr_nibElems (d : List Nib) :
    (nibElems d).flatMap (fun x => decstr (lowNib x)) = pinString d := by
  rw [← List.flatMap_map, map_lowNib_nibElems, pinString]

/-- Settles O49: PINEXT and the decode chain extract the digits of the same field, and raise what the
extractor raises. -/
theorem decodebIsTheChainOfUnits : Obligations.DecodebIsTheChainOfUnits := by
  intro b s hlen
  have hnibbles := unpackBytes_length_16 hlen
  have hclear := xorNibbles_length hnibbles s.panf.length_toList
  refine ⟨_, _, resultOf_of_exec_ok (exec_unpack_of_le (by omega) s),
    resultOf_xor16_nibElems hnibbles s.panf.length_toList s, ?_⟩
  have hpinext := exec_pinext_nibElems hclear s
  have hdecodeb := exec_decodeb_of_length hlen s
  rw [decodeField_eq_map_pinExtract hnibbles] at hdecodeb
  cases hext : pinExtract (fieldOfList (xorNibbles (unpackBytes b) s.panf.toList)) with
  | error e =>
    rw [hext] at hpinext hdecodeb
    refine ⟨fun d hd => ?_, fun r hr _ => ?_⟩
    · cases (resultOf_of_exec_raise hpinext).symm.trans hd
    · exact (responseOf_of_exec_raise hdecodeb).trans ((responseOf_of_exec_raise hpinext).symm.trans hr)
  | ok v =>
    rw [hext] at hpinext hdecodeb
    refine ⟨fun d hd => ?_, fun r hr hne => absurd (status_eq_zero_of_exec_ok hpinext hr) hne⟩
    cases (resultOf_of_exec_ok hpinext).symm.trans hd
    rw [flatMap_decstr_nibElems]
    exact resultOf_of_exec_ok hdecodeb

/-- R46: the hex rendering writes the halves of the bytes in order. -/
theorem hexRendering_eq_map_hexup (b : List Byte) : hexRendering b = (unpackBytes b).map hexup := by
  rw [hexRendering, unpackBytes, List.map_flatMap]
  rfl

/-- Settles O51: both are the decode chain on the halves of the bytes. -/
theorem decodebIsDecodeOfTheRendering : Obligations.DecodebIsDecodeOfTheRendering := by
  intro b s hlen
  rw [exec_decodeb_of_length hlen, hexRendering_eq_map_hexup,
    exec_decode_map_hexup (unpackBytes_length_16 hlen)]

/-! ### Round trips -/

/-- R148: the decode chain on the block of a decimal PIN, at the `PANF` it was made with, answers the
PIN. -/
theorem answer_decodeField_block {pin : List Byte} (h4 : 4 ≤ pin.length) (h12 : pin.length ≤ 12)
    (hdec : ∀ c ∈ pin, 0x30 ≤ c.toNat ∧ c.toNat ≤ 0x39) (rnd : Draws) (s : State) :
    answer (decodeField (xorNibbles (pinNibbles pin rnd) s.panf.toList) s.panf) s =
      .next { s with rsp := some (okResponse pin) } := by
  have hpin := (pinString_map_hexval_eq_iff fun c hc => ishex_of_decimal (hdec c hc)).mpr hdec
  rw [decodeField_block h4 h12, hpin, answer_ok, State.present]

/-- Settles O52: decoding runs the chain on the nibbles of the block in either form, and the response of
the encoding leaves `PANF` as it was. -/
theorem decimalPinsRoundTrip : Obligations.DecimalPinsRoundTrip := by
  intro pin rnd s h4 h12 hdec
  have hhex : ∀ c ∈ pin, ishex c = true := fun c hc => ishex_of_decimal (hdec c hc)
  have hblock := block_length h4 h12 rnd s.panf
  refine ⟨⟨_, _, exec_encode_of_legal h4 h12 hhex rnd s, rfl, ?_⟩,
    ⟨_, _, exec_encodeb_of_legal h4 h12 rnd hhex s, rfl, ?_⟩⟩
  · rw [exec_decode_map_hexup hblock]
    exact answer_decodeField_block h4 h12 hdec rnd (s.present _)
  · rw [exec_decodeb_of_length (length_packPairs_nibElems hblock), unpackBytes_packPairs_nibElems hblock]
    exact answer_decodeField_block h4 h12 hdec rnd (s.present _)

/-- Settles O54: the two exclusive ORs cancel, and the extractor finds the digits of the PIN field. -/
theorem digitsRoundTripThroughTheUnits : Obligations.DigitsRoundTripThroughTheUnits := by
  intro pin rnd p s h4 h12 hhex
  have hpin := pinNibbles_length rnd h4 h12
  have hp : p.toList.length = 16 := p.length_toList
  have hback := resultOf_xor16_nibElems (block_length h4 h12 rnd p) hp s
  rw [xorNibbles_cancel (hpin.trans hp.symm)] at hback
  have hdigits := exec_pinext_nibElems hpin s
  rw [pinExtract_pinField h4 h12 (fieldOfList_toList hpin)] at hdigits
  exact ⟨_, _, _, resultOf_of_exec_ok (exec_pingen_of_legal h4 h12 rnd hhex s),
    resultOf_xor16_nibElems hpin hp s, hback, resultOf_of_exec_ok hdigits⟩

end Sys2Proof.Machine
end

section
/-! ## PROOFS: the errors of the operations, and the steps without an operation -/

namespace Sys2Proof.Machine

/-! ### Failing with a cause of a list -/

/-- From `s` the outcome `o` presents no error, or is the raising of a cause of `cs` (R157, R170). -/
def FailsOnlyWith (cs : List Cause) (s : State) (o : Outcome) : Prop :=
  ∀ t r, o = .next t → t.rsp = some r → r.status ≠ 0 → ∃ c ∈ cs, o = raise c s

section
variable {cs : List Cause} {s : State}

theorem failsOnlyWith_raise {c : Cause} (hc : c ∈ cs) : FailsOnlyWith cs s (raise c s) :=
  fun _ _ _ _ _ => ⟨c, hc, rfl⟩

/-- A success fails with no cause, whatever was written before it. -/
theorem failsOnlyWith_ok (t : State) (p : List Byte) :
    FailsOnlyWith cs s (.next (t.present (okResponse p))) := by
  rintro _ _ ⟨⟩ ⟨⟩ hne
  exact absurd (status_okResponse p) hne

theorem failsOnlyWith_refused (e : Refusal) : FailsOnlyWith cs s (.refused e) := nofun

/-- An answer fails with what its units raise. -/
theorem failsOnlyWith_answer {res : Except Cause (List Byte)} (h : ∀ c, res = .error c → c ∈ cs) :
    FailsOnlyWith cs s (answer res s) := by
  cases res with
  | ok p => exact failsOnlyWith_ok s p
  | error c => exact failsOnlyWith_raise (h c rfl)

theorem failsOnlyWith_answerField {res : Except Cause Field16} (h : ∀ c, res = .error c → c ∈ cs) :
    FailsOnlyWith cs s (answerField res s) := by
  cases res with
  | ok f => exact failsOnlyWith_ok s _
  | error c => exact failsOnlyWith_raise (h c rfl)

end

/-! ### What the units raise -/

theorem panField_error_mem {pan : List Byte} {c : Cause} (h : panField pan = .error c) :
    c ∈ [Cause.panShort, .panChar] := by
  rcases panField_cases pan with ⟨-, e⟩ | ⟨-, -, e⟩ | ⟨-, -, f, e, -⟩ <;> cases e.symm.trans h <;> decide

/-- A PIN is legal, or the PIN field generator raises one error of it under all draws (R97, R171). -/
theorem legal_or_pinField_error (pin : List Byte) :
    (4 ≤ pin.length ∧ pin.length ≤ 12 ∧ ∀ c ∈ pin, ishex c = true) ∨
    ∃ c ∈ [Cause.pinLen, .pinChar], ∀ rnd, pinField pin rnd = .error c := by
  by_cases hlen : pin.length < 4 ∨ 12 < pin.length
  · exact .inr ⟨.pinLen, by decide, fun _ => pinField_length hlen⟩
  · have h4 : 4 ≤ pin.length := by omega
    have h12 : pin.length ≤ 12 := by omega
    cases hall : allHex pin with
    | false => exact .inr ⟨.pinChar, by decide, fun _ => pinField_char h4 h12 hall⟩
    | true => exact .inl ⟨h4, h12, (allHex_iff pin).mp hall⟩

theorem pinExtract_error_mem {f : Field16} {c : Cause} (h : pinExtract f = .error c) :
    c ∈ [Cause.badTag, .badPinlen] := by
  rcases pinExtract_cases f with ⟨-, e⟩ | ⟨-, -, e⟩ | ⟨-, -, -, e⟩ <;> cases e.symm.trans h <;> decide

/-- R163: on 16 nibbles the decode chain raises what the digit extractor raises. -/
theorem decodeField_error_mem {v : List Nib} {p : Field16} {c : Cause} (hv : v.length = 16)
    (h : decodeField v p = .error c) : c ∈ [Cause.badTag, .badPinlen] := by
  obtain ⟨f, -, ⟨-, e⟩ | ⟨-, -, e⟩ | ⟨-, -, -, e⟩⟩ := decodeField_cases p hv <;>
    cases e.symm.trans h <;> decide

/-! ### What the operations raise -/

/-- SETPAN and PANPREP raise what the PAN field extractor raises. -/
theorem exec_pan_failsOnlyWith (pan : List Byte) (s : State) :
    FailsOnlyWith [.panShort, .panChar] s (exec (.setpan pan) s) ∧
    FailsOnlyWith [.panShort, .panChar] s (exec (.panprep pan) s) := by
  refine ⟨?_, failsOnlyWith_answerField fun _ => panField_error_mem⟩
  cases hpan : panField pan with
  | error c =>
    rw [exec, execSetpan_of_error hpan]
    exact failsOnlyWith_raise (panField_error_mem hpan)
  | ok f =>
    rw [exec, execSetpan_of_ok hpan]
    exact failsOnlyWith_ok _ _

/-- PINGEN, ENCODE and ENCODEB raise what the PIN field generator raises. -/
theorem exec_pin_failsOnlyWith (pin : List Byte) (rnd : Draws) (s : State) :
    FailsOnlyWith [.pinLen, .pinChar] s (exec (.pingen pin rnd) s) ∧
    FailsOnlyWith [.pinLen, .pinChar] s (exec (.encode pin rnd) s) ∧
    FailsOnlyWith [.pinLen, .pinChar] s (exec (.encodeb pin rnd) s) := by
  rcases legal_or_pinField_error pin with ⟨h4, h12, hhex⟩ | ⟨c, hc, hpin⟩
  · rw [exec_pingen_of_legal h4 h12 rnd hhex, exec_encode_of_legal h4 h12 hhex,
      exec_encodeb_of_legal h4 h12 rnd hhex]
    exact ⟨failsOnlyWith_ok _ _, failsOnlyWith_ok _ _, failsOnlyWith_ok _ _⟩
  · obtain ⟨hpingen, hencode, hencodeb⟩ := exec_of_pinField_error (hpin rnd) s
    rw [hpingen, hencode, hencodeb]
    exact ⟨failsOnlyWith_raise hc, failsOnlyWith_raise hc, failsOnlyWith_raise hc⟩

theorem exec_unpack_failsOnlyWith (b : List Byte) (s : State) :
    FailsOnlyWith [] s (exec (.unpack b) s) := by
  rcases execUnpack_cases b s with ⟨-, e⟩ | ⟨-, e⟩ <;> rw [exec, e]
  · exact failsOnlyWith_refused _
  · exact failsOnlyWith_ok _ _

theorem exec_pack_failsOnlyWith (e : List Byte) (s : State) :
    FailsOnlyWith [.oddNibbles] s (exec (.pack e) s) := by
  rcases Nat.mod_two_eq_zero_or_one e.length with heven | hodd
  · rw [exec_pack_even heven]
    exact failsOnlyWith_ok _ _
  · rw [exec_pack_odd hodd]
    exact failsOnlyWith_raise (by decide)

theorem exec_xor16_failsOnlyWith (e : List Byte) (s : State) :
    FailsOnlyWith [.fieldLen] s (exec (.xor16 e) s) := by
  by_cases hlen : e.length = 32
  · rw [exec_xor16_of_length hlen]
    exact failsOnlyWith_ok _ _
  · rw [exec_xor16_of_length_ne hlen]
    exact failsOnlyWith_raise (by decide)

theorem exec_pinext_of_length_ne {e : List Byte} (h : e.length ≠ 16) (s : State) :
    exec (.pinext e) s = raise .fieldLen s := if_pos h

theorem exec_pinext_failsOnlyWith (e : List Byte) (s : State) :
    FailsOnlyWith [.fieldLen, .badTag, .badPinlen] s (exec (.pinext e) s) := by
  by_cases hlen : e.length = 16
  · rw [exec_pinext_of_length hlen]
    refine failsOnlyWith_answer fun c hc => .tail _ ?_
    cases hext : pinExtract (fieldOfList (e.map lowNib)) <;> rw [hext] at hc <;> cases hc
    exact pinExtract_error_mem hext
  · rw [exec_pinext_of_length_ne hlen]
    exact failsOnlyWith_raise (by decide)

theorem exec_decode_failsOnlyWith (b : List Byte) (s : State) :
    FailsOnlyWith [.blkstrLen, .blkstrChar, .badTag, .badPinlen] s (exec (.decode b) s) := by
  by_cases hlen : b.length = 16
  · cases hall : allHex b with
    | false =>
      rw [exec_decode_of_not_hex hlen hall]
      exact failsOnlyWith_raise (by decide)
    | true =>
      rw [exec_decode_of_legal hlen ((allHex_iff b).mp hall)]
      exact failsOnlyWith_answer fun c hc =>
        .tail _ (.tail _ (decodeField_error_mem ((List.length_map _).trans hlen) hc))
  · rw [exec_decode_of_length_ne hlen]
    exact failsOnlyWith_raise (by decide)

theorem exec_decodeb_failsOnlyWith (b : List Byte) (s : State) :
    FailsOnlyWith [.blkbytesLen, .badTag, .badPinlen] s (exec (.decodeb b) s) := by
  by_cases hlen : b.length = 8
  · rw [exec_decodeb_of_length hlen]
    exact failsOnlyWith_answer fun c hc =>
      .tail _ (decodeField_error_mem (unpackBytes_length_16 hlen) hc)
  · rw [exec_decodeb_of_length_ne hlen]
    exact failsOnlyWith_raise (by decide)

/-- R157: an operation that fails raises a cause of its list. -/
theorem exec_failsOnlyWith (i : Instr) (s : State) : FailsOnlyWith (causesOf i) s (exec i s) := by
  cases i with
  | setpan pan => obtain ⟨h, -⟩ := exec_pan_failsOnlyWith pan s; exact h
  | panprep pan => obtain ⟨-, h⟩ := exec_pan_failsOnlyWith pan s; exact h
  | pingen pin rnd => obtain ⟨h, -, -⟩ := exec_pin_failsOnlyWith pin rnd s; exact h
  | unpack b => exact exec_unpack_failsOnlyWith b s
  | pack e => exact exec_pack_failsOnlyWith e s
  | xor16 e => exact exec_xor16_failsOnlyWith e s
  | pinext e => exact exec_pinext_failsOnlyWith e s
  | encode pin rnd => obtain ⟨-, h, -⟩ := exec_pin_failsOnlyWith pin rnd s; exact h
  | encodeb pin rnd => obtain ⟨-, -, h⟩ := exec_pin_failsOnlyWith pin rnd s; exact h
  | decode b => exact exec_decode_failsOnlyWith b s
  | decodeb b => exact exec_decodeb_failsOnlyWith b s
  | reserved0 _ => exact failsOnlyWith_raise (List.mem_singleton_self _)
  | reservedCToF _ _ => exact failsOnlyWith_raise (List.mem_singleton_self _)

/-! ### A request for every cause of a list -/

/-- Some well-formed request with the operation code `op` raises `c`. -/
def RaisedUnder (op : BitVec 4) (c : Cause) : Prop :=
  ∃ (j : Instr) (s t : State), j.opcode = op ∧ j.wf = true ∧ exec j s = .next t ∧
    t.rsp = some (errResponse c)

theorem raisedUnder_of_reset {c : Cause} (j : Instr) (hwf : j.wf = true)
    (h : exec j State.reset = raise c State.reset) : RaisedUnder j.opcode c :=
  ⟨j, State.reset, _, rfl, hwf, h, rfl⟩

/-- R157: each cause is raised at the `PANF` of reset, by a short payload that passes the checks before
the one that fails. -/
theorem raisedUnder_of_mem_causesOf (i : Instr) : ∀ c ∈ causesOf i, RaisedUnder i.opcode c := by
  cases i <;> simp only [causesOf, List.forall_mem_cons, List.not_mem_nil, false_imp_iff, implies_true,
    and_true]
  case setpan =>
    exact ⟨raisedUnder_of_reset (.setpan []) rfl rfl,
      raisedUnder_of_reset (.setpan (List.replicate 13 0)) rfl rfl⟩
  case panprep =>
    exact ⟨raisedUnder_of_reset (.panprep []) rfl rfl,
      raisedUnder_of_reset (.panprep (List.replicate 13 0)) rfl rfl⟩
  case pingen _ rnd =>
    exact ⟨raisedUnder_of_reset (.pingen [] rnd) rfl rfl,
      raisedUnder_of_reset (.pingen (List.replicate 4 0) rnd) rfl rfl⟩
  case pack => exact raisedUnder_of_reset (.pack [0]) rfl rfl
  case xor16 => exact raisedUnder_of_reset (.xor16 []) rfl rfl
  case pinext =>
    exact ⟨raisedUnder_of_reset (.pinext []) rfl rfl,
      raisedUnder_of_reset (.pinext (List.replicate 16 0)) rfl rfl,
      raisedUnder_of_reset (.pinext (3 :: List.replicate 15 0)) rfl rfl⟩
  case encode _ rnd =>
    exact ⟨raisedUnder_of_reset (.encode [] rnd) rfl rfl,
      raisedUnder_of_reset (.encode (List.replicate 4 0) rnd) rfl rfl⟩
  case encodeb _ rnd =>
    exact ⟨raisedUnder_of_reset (.encodeb [] rnd) rfl rfl,
      raisedUnder_of_reset (.encodeb (List.replicate 4 0) rnd) rfl rfl⟩
  case decode =>
    exact ⟨raisedUnder_of_reset (.decode []) rfl rfl,
      raisedUnder_of_reset (.decode (List.replicate 16 0)) rfl rfl,
      raisedUnder_of_reset (.decode (List.replicate 16 0x30)) rfl rfl,
      raisedUnder_of_reset (.decode (0x33 :: List.replicate 15 0x30)) rfl rfl⟩
  case decodeb =>
    exact ⟨raisedUnder_of_reset (.decodeb []) rfl rfl,
      raisedUnder_of_reset (.decodeb (List.replicate 8 0)) rfl rfl,
      raisedUnder_of_reset (.decodeb (0x30 :: List.replicate 7 0)) rfl rfl⟩
  case reserved0 => exact raisedUnder_of_reset (.reserved0 []) rfl rfl
  case reservedCToF opLow _ => exact raisedUnder_of_reset (.reservedCToF opLow []) rfl rfl

/-- Settles O32: a failing operation raises a cause of its list, and each cause of the list has a request
that raises it. -/
theorem causesOfEachOperation : Obligations.CausesOfEachOperation := by
  refine ⟨fun i s t r h hr hne => ?_, raisedUnder_of_mem_causesOf⟩
  obtain ⟨c, hc, hraise⟩ := exec_failsOnlyWith i s t r h hr hne
  cases hraise.symm.trans h
  cases hr
  exact ⟨c, hc, rfl⟩

/-! ### Failing changes nothing -/

/-- Settles O33: a failing operation is the raising of a cause, and whether a PIN is refused does not
depend on the draws. -/
theorem failedOperationsChangeNothing : Obligations.FailedOperationsChangeNothing := by
  constructor
  · intro i s t r h hr hne
    obtain ⟨c, -, hraise⟩ := exec_failsOnlyWith i s t r h hr hne
    cases hraise.symm.trans h
    cases hr
    exact ⟨rfl, rfl⟩
  · intro pin d d' s t r hr hne
    rcases legal_or_pinField_error pin with ⟨h4, h12, hhex⟩ | ⟨c, -, hpin⟩
    · have hok {i : Instr} {p : List Byte} (hi : exec i s = .next (s.present (okResponse p)))
          (h : exec i s = .next t) : False :=
        hne (status_eq_zero_of_exec_ok hi ((responseOf_of_exec_next h).trans hr))
      exact ⟨fun h => (hok (exec_pingen_of_legal h4 h12 d hhex s) h).elim,
        fun h => (hok (exec_encode_of_legal h4 h12 hhex d s) h).elim,
        fun h => (hok (exec_encodeb_of_legal h4 h12 d hhex s) h).elim⟩
    · obtain ⟨hpingen, hencode, hencodeb⟩ := exec_of_pinField_error (hpin d) s
      obtain ⟨hpingen', hencode', hencodeb'⟩ := exec_of_pinField_error (hpin d') s
      exact ⟨(hpingen'.trans hpingen.symm).trans, (hencode'.trans hencode.symm).trans,
        (hencodeb'.trans hencodeb.symm).trans⟩

/-! ### Steps without an operation -/

/-- Settles O9: the idle step, and the step of what the decoder rejects. -/
theorem idleAndMalformedSteps : Obligations.IdleAndMalformedSteps :=
  ⟨fun _ => step_idle, fun _ _ _ _ h hlen => step_malformed h (decodeRequest_of_length_ne hlen)⟩

end Sys2Proof.Machine
end
